-- ==== Sys2Proof/Word.lean ====
section
/-! DEFINITION. The word types of the codec core. The block is elaborated for one data width `K` in
{8, 16, 32}; a vector of a narrower instance is held in the widest instance's type with the bits it
does not have at 0 (the invariant `State.Fits` says so, log entry 8). Every vector is unsigned (R8). -/

namespace Sys2Proof

/-- A data vector: `dat(d, j)` is bit `j - 1` (R9, R48). At most `K = 32` bits. -/
abbrev DataWord := BitVec 32

/-- A codeword vector: `pos(c, i)` is bit `i - 1` (R9, R47). At most `N = 38` bits. -/
abbrev CodeWord := BitVec 38

/-- A position or a syndrome (R49, R50). At most `M = 6` bits. -/
abbrev PosWord := BitVec 6

/-- An operation code `cmd_op` (R53), an error code (R23) or a status code (R24). -/
abbrev Code := BitVec 2

/-- The packed command word `CMD` (R52). At most `W = 78` bits. -/
abbrev CmdWord := BitVec 78

end Sys2Proof
end

