-- ==== Sys2Proof/Config.lean ====
section
/-! DEFINITION. What elaboration fixes: the one implementation parameter `K` (R6), and which of the
three instances `State.reset` is a state of. No value of this hardware is left open after reset, so
there is no free value here: the unreset registers are an argument of `State.powerUp` (R30). -/

namespace Sys2Proof

/-- The supported data widths (R6): one constructor for each instance CORE-K8, CORE-K16, CORE-K32. -/
inductive Width where
  | k8
  | k16
  | k32
  deriving DecidableEq, Repr

/-- The instance that `State.reset` and `decodeTableWord` stand for. DESIGN CHOICE (log entry 1): the
spec gives three instances of equal rank; every other definition and every statement takes the width
as an argument. -/
def Config.launchWidth : Width := .k8

end Sys2Proof
end

