-- ==== Sys2Proof/Machine/Bits.lean ====
section
/-! DEFINITION. Reading and writing one numbered bit of a vector, and exclusive or over a set of
positions, as the spec's pseudocode uses them (R9, R10). -/

namespace Sys2Proof.Machine

/-- Bit number `i` of `v`, counted from 1: `pos(c, i)` and `dat(d, j)` of R9. -/
def bitAt {n : Nat} (v : BitVec n) (i : Nat) : Bool := v.getLsbD (i - 1)

/-- The vector with the one bit numbered `i` (from 1) set: `1 << (i - 1)` of R91 and R98. -/
def unitAt (n i : Nat) : BitVec n := 1#n <<< (i - 1)

/-- `pos(v, i) := b` and `dat(v, i) := b` of the pseudocode (R77, R78, R93). -/
def putBit {n : Nat} (v : BitVec n) (i : Nat) (b : Bool) : BitVec n :=
  if b then v ||| unitAt n i else v &&& ~~~ (unitAt n i)

/-- `XOR over S of f(i)` (R10): 0 when `S` is empty. -/
def xorOver (S : List Nat) (f : Nat → Bool) : Bool := S.foldr (fun i acc => xor (f i) acc) false

/-- The vector whose bits numbered by `S` are set and whose other bits are 0: a vector mask (R70, R72)
and the flip vector `f` of R88, R101. -/
def maskOf (n : Nat) (S : List Nat) : BitVec n := S.foldl (fun v i => v ^^^ unitAt n i) 0#n

/-- The low `w` bits of `v`: what the `w` wires of a port carry. -/
def lowBits {n : Nat} (w : Nat) (v : BitVec n) : BitVec n := v &&& BitVec.ofNat n (2 ^ w - 1)

end Sys2Proof.Machine
end

