-- ==== Sys2Proof/Machine/Layout.lean ====
section
/-! DEFINITION. The layout that elaboration computes from `K` (40_layout.md): parity-bit count,
codeword length, parity positions, data positions, coverage sets; and what a port of an instance is
wide enough to carry. -/

namespace Sys2Proof.Machine

/-- `isPow2(i)` (R10): `i = 2^j` for some `j >= 0`. -/
def isPow2 (i : Nat) : Bool := (List.range i).any fun j => 2 ^ j == i

/-- The upward search of R67 from `m`, for at most `fuel` steps. -/
def searchParity (k : Nat) : Nat → Nat → Nat
  | 0, m => m
  | fuel + 1, m => if k + m + 1 ≤ 2 ^ m then m else searchParity k fuel (m + 1)

/-- `M` (R67): the smallest `m` with `2^m >= K + m + 1`, searched upward from 0. The search ends
before `m` passes `K + 1`. -/
def parityCount (k : Nat) : Nat := searchParity k (k + 1) 0

end Sys2Proof.Machine

namespace Sys2Proof

/-- The data width `K` of an instance (R6). -/
def Width.k : Width → Nat
  | .k8 => 8
  | .k16 => 16
  | .k32 => 32

/-- The parity-bit count `M` (R67). -/
def Width.m (w : Width) : Nat := Machine.parityCount w.k

/-- The codeword length `N = K + M` (R68). -/
def Width.n (w : Width) : Nat := w.k + w.m

/-- The command-word width `W = 2 + K + N + M` (R52). -/
def Width.cmdBits (w : Width) : Nat := 2 + w.k + w.n + w.m

/-- The string that identifies an instance (R2); the block itself cannot report it. -/
def Width.coreName : Width → String
  | .k8 => "CORE-K8"
  | .k16 => "CORE-K16"
  | .k32 => "CORE-K32"

/-- The codeword positions `1 .. N`, ascending. -/
def Width.positions (w : Width) : List Nat := List.range' 1 w.n

/-- `ParitySet = {2^0, ..., 2^(M-1)}`, ascending (R69). -/
def Width.paritySet (w : Width) : List Nat := (List.range w.m).map fun j => 2 ^ j

/-- The data positions, ascending: the positions that are no power of two (R70). -/
def Width.dataPositions (w : Width) : List Nat := w.positions.filter fun i => !Machine.isPow2 i

/-- `DataPos(j)` for `1 <= j <= K` (R70): the `j`-th smallest data position. -/
def Width.dataPos (w : Width) (j : Nat) : Nat := w.dataPositions.getD (j - 1) 0

/-- `DataIndex(i)` of a data position `i` (R71). -/
def Width.dataIndex (i : Nat) : Nat := i - Nat.log2 i - 1

/-- `Cov(p)` (R72): the positions `i` with `i & p == p`. -/
def Width.cov (w : Width) (p : Nat) : List Nat := w.positions.filter fun i => i &&& p == p

/-- The data bits that `Cov(p)` covers (R72, R79), by their numbers `DataIndex(i)`. -/
def Width.coveredData (w : Width) (p : Nat) : List Nat :=
  ((w.cov p).filter fun i => !Machine.isPow2 i).map Width.dataIndex

/-- What the `K` wires of a data port carry of `d`. -/
def Width.dataWires (w : Width) (d : DataWord) : DataWord := Machine.lowBits w.k d

/-- What the `N` wires of a codeword port carry of `c`. -/
def Width.cwWires (w : Width) (c : CodeWord) : CodeWord := Machine.lowBits w.n c

/-- What the `M` wires of a position port carry of `p`. -/
def Width.posWires (w : Width) (p : PosWord) : PosWord := Machine.lowBits w.m p

end Sys2Proof
end

