-- ==== Sys2Proof/Machine/Flags.lean ====
section
/-! DEFINITION. The two flag-like fields of the response: the error code `rsp_err` (R23) and the
decode classification `rsp_status` (R24, R90). -/

namespace Sys2Proof.Machine

/-- `rsp_err = 00`, NONE (R23). -/
def errNone : Code := 0#2
/-- `rsp_err = 01`, POSITION_OUT_OF_RANGE (R23, R113). -/
def errPositionOutOfRange : Code := 1#2
/-- `rsp_err = 10`, ILLEGAL_OP (R23, R115). -/
def errIllegalOp : Code := 2#2

/-- The three classifications of a syndrome (R90). -/
inductive Verdict where
  | noError
  | corrected
  | uncorrectable
  deriving DecidableEq, Repr

/-- `Classify(e)` (R90). -/
def classify (w : Width) (e : PosWord) : Verdict :=
  if e.toNat = 0 then .noError
  else if 1 ≤ e.toNat ∧ e.toNat ≤ w.n then .corrected
  else .uncorrectable

/-- The code of a classification in `rsp_status` (R24). -/
def statusCode : Verdict → Code
  | .noError => 0#2
  | .corrected => 1#2
  | .uncorrectable => 2#2

/-- A position is in range for FLIP (R99): `1 <= q <= N`. -/
def positionInRange (w : Width) (q : Nat) : Bool := decide (1 ≤ q) && decide (q ≤ w.n)

/-- The code `11` that nothing drives, in `rsp_err` (R23) and in `rsp_status` (R24). -/
def reservedResponseCode : Code := 3#2

end Sys2Proof.Machine
end

