-- ==== Sys2Proof/Machine/State.lean ====
section
/-! DEFINITION. Everything the spec gives the machine, as plain data: the elaboration constant, the
input ports (R19), the response registers (R20), whether a reset edge has been seen (R30), and the
host agent of R15 with its program, the cycles it has still to drive, its record and whether it is
driving a cycle of the program (R64, R139). -/

namespace Sys2Proof.Machine

/-- The response registers, and the output ports they drive (R20). -/
structure Response where
  /-- `rsp_valid` (R21): 1 for the one cycle after an edge that accepts a command. -/
  valid : Bool
  /-- `rsp_op` (R22). -/
  op : Code
  /-- `rsp_err` (R23). -/
  err : Code
  /-- `rsp_status` (R24). -/
  status : Code
  /-- `rsp_syn` (R25), `M` bits. -/
  syn : PosWord
  /-- `rsp_pos` (R26), `M` bits. -/
  pos : PosWord
  /-- `rsp_data` (R27), `K` bits. -/
  data : DataWord
  /-- `rsp_cw` (R28), `N` bits. -/
  cw : CodeWord
  deriving DecidableEq, Repr

/-- The input ports (R19) as they stand in one cycle. A value is two-valued by construction (D24). -/
structure Inputs where
  rst : Bool
  cmdValid : Bool
  cmdOp : Code
  cmdData : DataWord
  cmdCw : CodeWord
  cmdPos : PosWord
  deriving DecidableEq, Repr

/-- The codeword a host drives (R65): a value, or what `rsp_cw` holds in the cycle of the command. -/
inductive CwSource where
  | value (c : CodeWord)
  | rspCw
  deriving DecidableEq, Repr

/-- One cycle of the input ports that the host has still to drive. -/
structure Drive where
  rst : Bool
  cmdValid : Bool
  cmdOp : Code
  cmdData : DataWord
  cmdCw : CwSource
  cmdPos : PosWord
  deriving DecidableEq, Repr

/-- The errors of the host layer and of elaboration (R109, R110 to R113, R103): a host-side
enumeration with no bit code (D21). -/
inductive HostError where
  | invalidWidth
  | lengthMismatch
  | invalidSymbol
  | positionOutOfRange
  | duplicatePosition
  deriving DecidableEq, Repr

/-- A `<data>` operand (R65): a bit string or a hexadecimal value. -/
inductive DataOperand where
  | bits (s : List Char)
  | hex (v : Nat)
  deriving DecidableEq, Repr

/-- A `<cw>` operand (R65): a bit string, a hexadecimal value, or the word `rsp_cw`. -/
inductive CwOperand where
  | bits (s : List Char)
  | hex (v : Nat)
  | rspCw
  deriving DecidableEq, Repr

/-- The statements of a host program (R64). -/
inductive Stmt where
  | encode (d : DataOperand)
  | decode (c : CwOperand)
  | flip (c : CwOperand) (q : Int)
  | inject (c : CwOperand) (qs : List Int)
  | cmd (word : Nat)
  | idle (t : Nat)
  | reset
  deriving DecidableEq, Repr

/-- One entry of the host's record (R139). -/
inductive HostEvent where
  /-- A response the host sampled with `rsp_valid = 1` (R135). -/
  | response (r : Response)
  /-- A statement that the host layer refused (R61, R62, R105). -/
  | refused (e : HostError)
  /-- The result of an empty INJECT (R106). -/
  | value (c : CodeWord)
  deriving DecidableEq, Repr

/-- Why a step stops with a fault. No meaning of a command raises either. -/
inductive Fault where
  /-- Raised by `State.readResponse` when the host reads a response register before the first reset
  edge, where it holds no value (R30, R130). Safe: the model stops where hardware shows some value. -/
  | readBeforeReset
  /-- Raised by `step` and `State.readResponse` in a state that holds `rsp_err = 11` or
  `rsp_status = 11` after a reset, which no run reaches (R58, I4). Safe: no run from reset meets it. -/
  | reservedCode
  deriving DecidableEq, Repr

/-- Why a step refuses. -/
inductive Refusal where
  /-- Raised by an arm of `exec` whose instruction has no meaning yet; no arm raises it. Safe. -/
  | notModelled (mnemonic : String)
  deriving DecidableEq, Repr

/-- The machine between two rising edges. -/
structure State where
  /-- The elaboration constant `K` (R6, R16). -/
  width : Width
  /-- The input ports as the host drives them until the next edge (R19). -/
  inp : Inputs
  /-- The response registers (R20). -/
  rsp : Response
  /-- An edge with `rst = 1` has occurred since power-up, so the registers hold values (R30). -/
  resetSeen : Bool
  /-- The host's cycles still to be driven for the statement it is presenting (R64, R104). -/
  pending : List Drive
  /-- The host's statements still to be presented, in program order (R64). -/
  program : List Stmt
  /-- The host's record, oldest first (R139). -/
  record : List HostEvent
  /-- The ports carry a cycle of the host's program: a command, a cycle of IDLE or one of RESET. It tells
  an idle cycle of the program from the idle cycles after it (R139). -/
  driving : Bool
  deriving DecidableEq, Repr

/-- The reset values of the response registers (R29). -/
def Response.atReset : Response := ⟨false, 0#2, 0#2, 0#2, 0#6, 0#6, 0#32, 0#38⟩

/-- The ports in a cycle in which the host presents nothing (R56): every field 0. -/
def Inputs.idle : Inputs := ⟨false, false, 0#2, 0#32, 0#38, 0#6⟩

/-- The instance of width `w` just after a reset edge (R29), with a host that has nothing to present.
The ports and the host's lists are DESIGN CHOICE (log entry 2): the spec gives them no reset value. -/
def State.resetOf (w : Width) : State := ⟨w, Inputs.idle, Response.atReset, true, [], [], [], false⟩

/-- The machine right after reset (R29, R130), for the launch instance (log entry 1). -/
def State.reset : State := State.resetOf Config.launchWidth

/-- The unreset instance of width `w` (R30): the registers hold some `r` that nothing may read. -/
def State.powerUp (w : Width) (r : Response) : State := ⟨w, Inputs.idle, r, false, [], [], [], false⟩

end Sys2Proof.Machine
end

