-- ==== Sys2Proof/Machine/Ops.lean ====
section
/-! DEFINITION. The named operations on the registers and the ports: writing a response, the error
pattern, reset, idle, the host's read, the host's drive. The block has no memory (R34) and takes no
exception (R118): the error pattern of R114 is what it does instead, and nothing returns (R119). -/

namespace Sys2Proof.Machine

/-- All response registers written at the accepting edge (R40, R125). -/
def State.respond (s : State) (r : Response) : State := { s with rsp := r }

/-- The error response (R114): `rsp_valid` 1, the operation and the code, every other field 0. -/
def State.raiseError (s : State) (op code : Code) : State :=
  s.respond ⟨true, op, code, 0#2, 0#6, 0#6, 0#32, 0#38⟩

/-- An edge with `rst = 1` (R127): the reset values of R29. The host's side is not touched. -/
def State.applyReset (s : State) : State := { s with rsp := Response.atReset, resetSeen := true }

/-- An edge with `rst = 0` and `cmd_valid = 0` (R126): `rsp_valid` becomes 0, the rest holds. -/
def State.applyIdle (s : State) : State := { s with rsp := { s.rsp with valid := false } }

/-- The state holds a reserved code after a reset (R58, I4): it has no predecessor. -/
def State.holdsReservedCode (s : State) : Bool :=
  s.resetSeen && (s.rsp.err == reservedResponseCode || s.rsp.status == reservedResponseCode)

/-- The host reads the output ports between two edges (R138, R41). Before the first reset edge the
registers hold no value and the read faults (R30). -/
def State.readResponse (s : State) : Except Fault Response :=
  if s.resetSeen = false then .error .readBeforeReset
  else if s.holdsReservedCode then .error .reservedCode
  else .ok s.rsp

/-- The host appends an entry to its record (R139). -/
def State.note (s : State) (e : HostEvent) : State := { s with record := s.record ++ [e] }

/-- The host samples the outputs in the cycle after an edge: it records the response when
`rsp_valid = 1` and a reset has been seen (R131, R135). DESIGN CHOICE (log entry 4): it samples every
such response. -/
def State.sample (s : State) : State :=
  if s.resetSeen && s.rsp.valid then s.note (.response s.rsp) else s

/-- The value of a driven codeword (R65, R134): `rsp_cw` is read in the cycle of the command, after
the earlier edge. DESIGN CHOICE (log entry 15): after a reset and before any accepted command, where
`rsp_cw` holds no result (R29, R131), the operand is still what the register holds, its reset value 0. -/
def State.cwOfSource (s : State) : CwSource → Except Fault CodeWord
  | .value c => .ok c
  | .rspCw =>
    match s.readResponse with
    | .ok r => .ok r.cw
    | .error f => .error f

/-- The host drives the ports for one cycle of its program. A port carries what its wires can (log entry 8). -/
def State.drive (s : State) (d : Drive) : Host.Outcome State Fault Refusal :=
  match s.cwOfSource d.cmdCw with
  | .ok c =>
    .next { s with inp := ⟨d.rst, d.cmdValid, d.cmdOp, s.width.dataWires d.cmdData,
      s.width.cwWires c, s.width.posWires d.cmdPos⟩, driving := true }
  | .error f => .fault f

end Sys2Proof.Machine
end

