-- ==== Sys2Proof/Machine/Decoder.lean ====
section
/-! DEFINITION. The decoder (syndrome calculator, corrector, extractor) and the DECODE command
(42_decode.md). -/

namespace Sys2Proof.Machine

/-- `s_j(c)` (R84): the XOR of the received codeword over `Cov(2^j)`. -/
def Codec.syndromeBit (w : Width) (c : CodeWord) (j : Nat) : Bool :=
  xorOver (w.cov (2 ^ j)) (bitAt c)

/-- `Syndrome(c)` (R86): bit `j` is `s_j(c)`. -/
def Codec.syndrome (w : Width) (c : CodeWord) : PosWord :=
  (List.range w.m).foldl (fun e j => putBit e (j + 1) (Codec.syndromeBit w c j)) 0#6

/-- `Correct(c, e)` (R91): position `e` inverted when `e` is classified CORRECTED. -/
def Codec.correct (w : Width) (c : CodeWord) (e : PosWord) : CodeWord :=
  match classify w e with
  | .corrected => c ^^^ unitAt 38 e.toNat
  | .noError => c
  | .uncorrectable => c

/-- `Extract(c)` (R93): the data positions read back into a data word. -/
def Codec.extract (w : Width) (c : CodeWord) : DataWord :=
  (List.range' 1 w.k).foldl (fun d j => putBit d j (bitAt c (w.dataPos j))) 0#32

/-- `rsp_pos` of a DECODE (R95): the syndrome when CORRECTED, and 0 otherwise. -/
def Codec.reportedPosition (w : Width) (e : PosWord) : PosWord :=
  match classify w e with
  | .corrected => e
  | .noError => 0#6
  | .uncorrectable => 0#6

/-- The response of a DECODE of `c` (R95). -/
def Codec.decodeResponse (w : Width) (c : CodeWord) : Response :=
  let e := Codec.syndrome w c
  let cc := Codec.correct w c e
  ⟨true, 1#2, errNone, statusCode (classify w e), e, Codec.reportedPosition w e,
    Codec.extract w cc, cc⟩

/-- DECODE (R95). -/
def execDecode (cw : CodeWord) (s : State) : Host.Outcome State Fault Refusal :=
  .next (s.respond (Codec.decodeResponse s.width (s.width.cwWires cw)))

end Sys2Proof.Machine
end

