-- ==== Sys2Proof/Machine/Encoder.lean ====
section
/-! DEFINITION. The encoder and the ENCODE command (41_encode.md). -/

namespace Sys2Proof.Machine

/-- `Place(d)` (R77): the data bits at the data positions, 0 at the parity positions. -/
def Codec.place (w : Width) (d : DataWord) : CodeWord :=
  (List.range' 1 w.k).foldl (fun c j => putBit c (w.dataPos j) (bitAt d j)) 0#38

/-- `Encode(d)` (R78): each parity position, ascending, gets the XOR over its coverage set. -/
def Codec.encode (w : Width) (d : DataWord) : CodeWord :=
  w.paritySet.foldl (fun c p => putBit c p (xorOver (w.cov p) (bitAt c))) (Codec.place w d)

/-- ENCODE (R80). -/
def execEncode (data : DataWord) (s : State) : Host.Outcome State Fault Refusal :=
  .next (s.respond ⟨true, 0#2, errNone, statusCode .noError, 0#6, 0#6, 0#32,
    Codec.encode s.width (s.width.dataWires data)⟩)

end Sys2Proof.Machine
end

