-- ==== Sys2Proof/Machine/Flipper.lean ====
section
/-! DEFINITION. The bit flipper and the FLIP command (43_flip.md). -/

namespace Sys2Proof.Machine

/-- `Flip(c, q)` (R98): position `q` inverted. -/
def Codec.flip (c : CodeWord) (q : Nat) : CodeWord := c ^^^ unitAt 38 q

/-- FLIP (R100): a position outside `[1, N]` gives the error pattern with POSITION_OUT_OF_RANGE. -/
def execFlip (cw : CodeWord) (pos : PosWord) (s : State) : Host.Outcome State Fault Refusal :=
  let q := (s.width.posWires pos).toNat
  if positionInRange s.width q then
    .next (s.respond ⟨true, 2#2, errNone, statusCode .noError, 0#6, 0#6, 0#32,
      Codec.flip (s.width.cwWires cw) q⟩)
  else .next (s.raiseError 2#2 errPositionOutOfRange)

end Sys2Proof.Machine
end

