-- ==== Sys2Proof/Machine/IllegalOp.lean ====
section
/-! DEFINITION. The reserved operation `cmd_op = 11` (60_exceptions.md R115). -/

namespace Sys2Proof.Machine

/-- ILLEGAL_OP (R115): the error pattern, whatever the operand ports hold. -/
def execIllegalOp (s : State) : Host.Outcome State Fault Refusal :=
  .next (s.raiseError 3#2 errIllegalOp)

end Sys2Proof.Machine
end

