-- ==== Sys2Proof/Syntax.lean ====
section
/-! DEFINITION. The commands of the block, one constructor for each row of spec/opcode_table.json
(R53). A constructor carries the operand fields its operation reads (R54), and nothing else. -/

namespace Sys2Proof

/-- A command, as the block acts on it. -/
inductive Instr where
  /-- ENCODE, `cmd_op = 00` (R80): reads `cmd_data`. -/
  | encode (data : DataWord)
  /-- DECODE, `cmd_op = 01` (R95): reads `cmd_cw`. -/
  | decode (cw : CodeWord)
  /-- FLIP, `cmd_op = 10` (R100): reads `cmd_cw` and `cmd_pos`. -/
  | flip (cw : CodeWord) (pos : PosWord)
  /-- The reserved operation `cmd_op = 11` (R115): reads no operand. -/
  | illegalOp
  deriving DecidableEq, Repr

end Sys2Proof
end

