-- ==== Sys2Proof/Machine/Dispatch.lean ====
section
/-! DEFINITION. What an accepted command does at its edge (R125): one meaning for each command. -/

namespace Sys2Proof.Machine

def exec (i : Instr) (s : State) : Host.Outcome State Fault Refusal :=
  match i with
  | .encode data => Sys2Proof.Machine.execEncode data s
  | .decode cw => Sys2Proof.Machine.execDecode cw s
  | .flip cw pos => Sys2Proof.Machine.execFlip cw pos s
  | .illegalOp => Sys2Proof.Machine.execIllegalOp s

end Sys2Proof.Machine
end

