-- ==== Sys2Proof/WellFormed.lean ====
section
/-! DEFINITION. When a command fits an instance: each operand lies within the width of its port
(R19, R39). -/

namespace Sys2Proof

/-- The operands of `i` fit the ports of the instance `w`. -/
def WellFormed (w : Width) : Instr → Bool
  | .encode data => decide (data.toNat < 2 ^ w.k)
  | .decode cw => decide (cw.toNat < 2 ^ w.n)
  | .flip cw pos => decide (cw.toNat < 2 ^ w.n) && decide (pos.toNat < 2 ^ w.m)
  | .illegalOp => true

end Sys2Proof
end

