-- ==== Sys2Proof/Decode.lean ====
section
/-! DEFINITION. From the values on the command ports, or from the packed word `CMD`, to the command
(R51 to R55), and back. -/

namespace Sys2Proof

/-- Why a word is no command of an instance. -/
inductive DecodeError where
  /-- The number needs more than the `W` bits a command word has (R52, R57). -/
  | tooWide
  deriving DecidableEq, Repr

/-- The values of the four command fields, which are four separate ports (R51). -/
structure Fields where
  op : Code
  data : DataWord
  cw : CodeWord
  pos : PosWord
  deriving DecidableEq, Repr

/-- The fields of the packed word (R52): `CMD[1:0]`, `CMD[K+1:2]`, `CMD[K+N+1:K+2]`,
`CMD[W-1:K+N+2]`. -/
def unpack (w : Width) (c : CmdWord) : Fields where
  op := c.extractLsb' 0 2
  data := (c.extractLsb' 2 w.k).setWidth 32
  cw := (c.extractLsb' (w.k + 2) w.n).setWidth 38
  pos := (c.extractLsb' (w.k + w.n + 2) w.m).setWidth 6

/-- The packed word of four fields (R52). -/
def pack (w : Width) (f : Fields) : CmdWord :=
  f.op.setWidth 78 ||| f.data.setWidth 78 <<< 2 ||| f.cw.setWidth 78 <<< (w.k + 2) |||
    f.pos.setWidth 78 <<< (w.k + w.n + 2)

/-- The command that the fields select (R53). Each operation reads the fields of R54, at the widths of
their ports, and ignores the others. -/
def decodeFields (w : Width) (f : Fields) : Instr :=
  if f.op = 0#2 then .encode (w.dataWires f.data)
  else if f.op = 1#2 then .decode (w.cwWires f.cw)
  else if f.op = 2#2 then .flip (w.cwWires f.cw) (w.posWires f.pos)
  else .illegalOp

/-- The decoder of packed words: every `W`-bit word is a command (R55), a wider number is none. -/
def decode (w : Width) (c : CmdWord) : Except DecodeError Instr :=
  if c.toNat < 2 ^ w.cmdBits then .ok (decodeFields w (unpack w c)) else .error .tooWide

/-- The decoder on any natural number. -/
def decodeNat (w : Width) (v : Nat) : Except DecodeError Instr :=
  if v < 2 ^ w.cmdBits then decode w (BitVec.ofNat 78 v) else .error .tooWide

/-- The operation code of a command (R53). -/
def Instr.op : Instr → Code
  | .encode _ => 0#2
  | .decode _ => 1#2
  | .flip _ _ => 2#2
  | .illegalOp => 3#2

/-- The four fields of a command as an assembler writes them: 0 in the ignored ones (R54, R64). -/
def Instr.fields : Instr → Fields
  | .encode data => ⟨0#2, data, 0#38, 0#6⟩
  | .decode cw => ⟨1#2, 0#32, cw, 0#6⟩
  | .flip cw pos => ⟨2#2, 0#32, cw, pos⟩
  | .illegalOp => ⟨3#2, 0#32, 0#38, 0#6⟩

/-- The packed word of a command. -/
def encode (w : Width) (i : Instr) : CmdWord := pack w i.fields

/-- What the decoder of the launch instance reads from a word whose first `nbits` bits are those of
`w` and whose other bits are 0. -/
def decodeTableWord (nbits w : Nat) : Option Instr :=
  (decodeNat Config.launchWidth (w % 2 ^ nbits)).toOption

end Sys2Proof
end

