-- ==== Sys2Proof/Machine/Operands.lean ====
section
/-! DEFINITION. The operand forms: what the command on the ports is (R51, R54), and the host layer's
conversions between bit strings, hexadecimal values, host integers and port vectors (R59 to R65), in
both directions. -/

namespace Sys2Proof.Machine

/-- The command on the ports (R51), read at the widths of the ports. -/
def Inputs.command (w : Width) (p : Inputs) : Instr :=
  decodeFields w ⟨p.cmdOp, p.cmdData, p.cmdCw, p.cmdPos⟩

/-- The vector of a string (R60): character `t`, counted from 0 at the left, is bit `t`. -/
def vectorOfChars (n : Nat) (s : List Char) : BitVec n :=
  s.foldr (fun c v => (v <<< 1) ||| (if c = '1' then 1#n else 0#n)) 0#n

/-- `HostToVector(s, L_expected)` (R61): the length is checked before the symbols. -/
def hostToVector (n : Nat) (s : List Char) (expected : Nat) : Except HostError (BitVec n) :=
  if s.length ≠ expected then .error .lengthMismatch
  else if s.any (fun c => !(c == '0' || c == '1')) then .error .invalidSymbol
  else .ok (vectorOfChars n s)

/-- A hexadecimal operand for a field of `bits` bits (R65): too large a value is LengthMismatch. -/
def hexToVector (n : Nat) (v : Nat) (bits : Nat) : Except HostError (BitVec n) :=
  if v < 2 ^ bits then .ok (BitVec.ofNat n v) else .error .lengthMismatch

/-- A `<data>` operand (R65). -/
def DataOperand.toVector (w : Width) : DataOperand → Except HostError DataWord
  | .bits s => hostToVector 32 s w.k
  | .hex v => hexToVector 32 v w.k

/-- A `<cw>` operand (R65); the word `rsp_cw` is resolved in the cycle that drives it. -/
def CwOperand.toSource (w : Width) : CwOperand → Except HostError CwSource
  | .bits s => (hostToVector 38 s w.n).map .value
  | .hex v => (hexToVector 38 v w.n).map .value
  | .rspCw => .ok .rspCw

/-- A position operand (R62): a host integer that does not fit `M` bits is PositionOutOfRange here; the
block itself refuses 0 and `N < q` (R99). -/
def positionOperand (w : Width) (q : Int) : Except HostError PosWord :=
  if q < 0 ∨ q > 2 ^ w.m - 1 then .error .positionOutOfRange else .ok (BitVec.ofInt 6 q)

/-- The string of the low `len` bits of a vector (R63), leftmost character first. -/
def charsOfVector {n : Nat} (v : BitVec n) (len : Nat) : List Char :=
  (List.range len).map fun t => if v.getLsbD t then '1' else '0'

/-- The string of a data vector (R63). -/
def dataString (w : Width) (d : DataWord) : List Char := charsOfVector d w.k

/-- The string of a codeword vector (R63). -/
def codewordString (w : Width) (c : CodeWord) : List Char := charsOfVector c w.n

/-- The host integer of a position or a syndrome (R63): the value of its vector. -/
def hostInteger (p : PosWord) : Int := p.toNat

/-- A response as the host layer returns it (R63): codeword and data as bit strings, position and
syndrome as integers. -/
structure HostResult where
  valid : Bool
  op : Code
  err : Code
  status : Code
  syn : Int
  pos : Int
  data : List Char
  cw : List Char
  deriving DecidableEq, Repr

/-- The host layer's view of a response of the instance `w` (R63). -/
def Response.toHost (w : Width) (r : Response) : HostResult :=
  ⟨r.valid, r.op, r.err, r.status, hostInteger r.syn, hostInteger r.pos, dataString w r.data,
    codewordString w r.cw⟩

/-- The host reads the outputs through the host layer (R63, R138). -/
def State.readResult (s : State) : Except Fault HostResult :=
  s.readResponse.map (Response.toHost s.width)

/-- An entry of the record as the host layer returns it: a sampled response, or nothing (R63, R139). -/
def HostEvent.result (w : Width) : HostEvent → Option HostResult
  | .response r => some (r.toHost w)
  | .refused _ => none
  | .value _ => none

/-- The sampled responses of the record as the host layer returns them, oldest first (R63, R139). -/
def State.results (s : State) : List HostResult := s.record.filterMap (HostEvent.result s.width)

/-- Elaboration with data width `k` (R6, R110): the instance, or InvalidWidth and no machine. -/
def elaborate (k : Nat) : Except HostError Width :=
  if k = 8 then .ok .k8 else if k = 16 then .ok .k16 else if k = 32 then .ok .k32
  else .error .invalidWidth

end Sys2Proof.Machine
end

