-- ==== Sys2Proof/Machine/HostLayer.lean ====
section
/-! DEFINITION. The host agent: what each statement drives (R64, R104), its checks (R61, R103, R105,
R117), and how the host presents its program cycle by cycle (R18, R138). -/

namespace Sys2Proof.Machine

/-- A cycle in which the host presents nothing (R56). -/
def Drive.idle : Drive := ⟨false, false, 0#2, 0#32, .value 0#38, 0#6⟩

/-- The cycle of the RESET directive (R64). -/
def Drive.reset : Drive := ⟨true, false, 0#2, 0#32, .value 0#38, 0#6⟩

/-- The cycle of `ENCODE <data>` (R64). -/
def Drive.encode (d : DataWord) : Drive := ⟨false, true, 0#2, d, .value 0#38, 0#6⟩

/-- The cycle of `DECODE <cw>` (R64). -/
def Drive.decode (c : CwSource) : Drive := ⟨false, true, 1#2, 0#32, c, 0#6⟩

/-- The cycle of `FLIP <cw>, <q>` (R64). -/
def Drive.flip (c : CwSource) (q : PosWord) : Drive := ⟨false, true, 2#2, 0#32, c, q⟩

/-- The cycle of `.cmd <hex>` (R64): the fields as given. -/
def Drive.ofWord (w : Width) (c : CmdWord) : Drive :=
  ⟨false, true, (unpack w c).op, (unpack w c).data, .value (unpack w c).cw, (unpack w c).pos⟩

/-- The FLIPs of an INJECT (R104): the first takes the operand, each later one `rsp_cw`. -/
def injectFlips : CwSource → List Int → List Drive
  | _, [] => []
  | c, q :: qs => Drive.flip c (BitVec.ofInt 6 q) :: injectFlips .rspCw qs

/-- An INJECT position is in `[1, N]` (R105). -/
def injectPositionOk (w : Width) (q : Int) : Bool := decide (1 ≤ q) && decide (q ≤ w.n)

/-- `INJECT <cw>, {q1, ..., qr}`: all checks before any FLIP, in the order of R105. -/
def expandInject (w : Width) (c : CwOperand) (qs : List Int) : Except HostError (List Drive) :=
  match c.toSource w with
  | .error e => .error e
  | .ok src =>
    if ¬ qs.Nodup then .error .duplicatePosition
    else if qs.any (fun q => !injectPositionOk w q) then .error .positionOutOfRange
    else .ok (injectFlips src qs)

/-- `FLIP <cw>, <q>`: the codeword's checks come before the position's (R117). -/
def expandFlip (w : Width) (c : CwOperand) (q : Int) : Except HostError (List Drive) :=
  match c.toSource w with
  | .error e => .error e
  | .ok src => (positionOperand w q).map fun p => [Drive.flip src p]

/-- The cycles a statement drives (R64), or the error with which the host layer refuses it: then it
drives none (R59, R61). -/
def Stmt.expand (w : Width) : Stmt → Except HostError (List Drive)
  | .encode d => (d.toVector w).map fun v => [Drive.encode v]
  | .decode c => (c.toSource w).map fun src => [Drive.decode src]
  | .flip c q => expandFlip w c q
  | .inject c qs => expandInject w c qs
  | .cmd word => (hexToVector 78 word w.cmdBits).map fun c => [Drive.ofWord w c]
  | .idle t => .ok (List.replicate t Drive.idle)
  | .reset => .ok [Drive.reset]

/-- The host-level result of a statement that drives no cycle: an empty INJECT gives its codeword back
(R106), which the host notes in its record (DESIGN CHOICE, log entry 16); `IDLE 0` gives nothing. -/
def State.noteResult (s : State) (st : Stmt) : Except Fault State :=
  match st with
  | .inject c [] =>
    match c.toSource s.width with
    | .ok src => (s.cwOfSource src).map fun v => s.note (.value v)
    | .error e => .ok (s.note (.refused e))
  | _ => .ok s

/-- The host goes through its statements up to the first that drives a cycle, and drives it. A refused
statement is recorded and drives nothing (R61); the host then goes on in the same cycle (DESIGN CHOICE,
log entry 6), as it does after a statement of no cycles (DESIGN CHOICE, log entry 16). After the program
the host presents nothing (DESIGN CHOICE, log entry 5). -/
def State.nextStatement (s : State) : List Stmt → Host.Outcome State Fault Refusal
  | [] => .next { s with program := [], inp := Inputs.idle, driving := false }
  | st :: rest =>
    match st.expand s.width with
    | .error e => State.nextStatement (s.note (.refused e)) rest
    | .ok [] =>
      match s.noteResult st with
      | .ok s' => State.nextStatement s' rest
      | .error f => .fault f
    | .ok (d :: ds) => State.drive { s with pending := ds, program := rest } d

/-- The host drives the ports for the coming edge: the next cycle of the statement it is presenting,
and otherwise the next statement. -/
def State.presentNext (s : State) : Host.Outcome State Fault Refusal :=
  match s.pending with
  | d :: ds => State.drive { s with pending := ds } d
  | [] => State.nextStatement s s.program

/-- The host starts a program: it presents the first cycle. DESIGN CHOICE (log entry 17): the cycles and
statements of an earlier program that are still to be driven are dropped, with what stands on the ports,
and the record is kept; R139 speaks of one run and is silent on a second one. -/
def State.load (s : State) (program : List Stmt) : Host.Outcome State Fault Refusal :=
  State.presentNext { s with pending := [], program := program }

/-- How many cycles a statement drives (R64): none where the host layer refuses it. -/
def Stmt.cycles (w : Width) (st : Stmt) : Nat :=
  match st.expand w with
  | .ok ds => ds.length
  | .error _ => 0

/-- How many cycles of its program the host has still to drive after the one on the ports. -/
def State.cyclesLeft (s : State) : Nat :=
  s.pending.length + (s.program.map (Stmt.cycles s.width)).sum

/-- The run of the program has ended (R139): nothing is left to present, and the ports carry neither a
cycle of the program, be it an idle one of a trailing IDLE, nor a command or a reset from elsewhere. -/
def State.runEnded (s : State) : Bool :=
  s.pending.isEmpty && s.program.isEmpty && !s.driving && !s.inp.rst && !s.inp.cmdValid

end Sys2Proof.Machine
end

