-- ==== Sys2Proof/Machine/Edge.lean ====
section
/-! DEFINITION. One rising edge of `clk` (R125), and the cycle after it. -/

namespace Sys2Proof.Machine

/-- What the block does at a rising edge: reset, one accepted command, or idle, in that order of
priority (R125, R128). -/
def State.edge (s : State) : Host.Outcome State Fault Refusal :=
  if s.inp.rst then .next s.applyReset
  else if s.inp.cmdValid then exec (s.inp.command s.width) s
  else .next s.applyIdle

/-- The cycle after an edge: the host samples the outputs and drives the ports for the next edge. -/
def State.cycle (s : State) : Host.Outcome State Fault Refusal := s.sample.presentNext

/-- Going on from a next state, and stopping where the outcome is a stop. -/
def andThen (o : Host.Outcome State Fault Refusal)
    (f : State → Host.Outcome State Fault Refusal) : Host.Outcome State Fault Refusal :=
  match o with
  | .next t => f t
  | .fault e => .fault e
  | .refused r => .refused r

/-- The ports carrying the command of a packed word whose first `nbits` bits are those of `v` and whose
other bits are 0, with `cmd_valid = 1` and `rst = 0`. -/
def Inputs.ofWord (w : Width) (nbits v : Nat) : Inputs :=
  let f := unpack w (BitVec.ofNat 78 (v % 2 ^ nbits))
  ⟨false, true, f.op, f.data, f.cw, f.pos⟩

end Sys2Proof.Machine
end

