-- ==== Sys2Proof/Machine/Step.lean ====
section
/-! DEFINITION. One step: one rising edge and the cycle after it. -/

namespace Sys2Proof.Machine

/-- One rising edge of `clk` (R125) and the host's cycle after it (R138). A state that holds a reserved
code after a reset is a fault of the model (R58). -/
def step (s : State) : Host.Outcome State Fault Refusal :=
  if s.holdsReservedCode then .fault .reservedCode
  else andThen s.edge State.cycle

/-- The state with a command presented on its ports (log entry 7): there is no fetch (R18), so the
ports are where the next step finds its command. -/
def State.withFetchWord (s : State) (nbits w : Nat) : State :=
  { s with inp := Inputs.ofWord s.width nbits w }

end Sys2Proof.Machine
end

