-- ==== Sys2Proof/Machine/Assembler.lean ====
section
/-! DEFINITION. The text form of a program (R64, R65): one statement a line, `;` starts a comment.
Blanks, the spelling of numbers, and what happens to an empty line, to one of a comment alone and to one
that is no statement are DESIGN CHOICE (log entry 9). A text is a list of characters. -/

namespace Sys2Proof.Machine

/-- Why a line is no statement of R64. -/
inductive LineError where
  | notAStatement
  deriving DecidableEq, Repr

/-- A separator that is a token of its own: the comma and the two braces of INJECT. -/
def Asm.isMark (c : Char) : Bool := c == ',' || c.toNat == 123 || c.toNat == 125

/-- A blank between tokens. -/
def Asm.isBlank (c : Char) : Bool := c == ' ' || c == '\t' || c == '\r'

/-- The tokens of a line up to its comment (R64), given whether a quoted string is open and the
characters of the token being read, newest first. Inside quotes every character belongs to the bit
string (R65): its symbols are the host layer's to check (R61). -/
def Asm.tokensFrom : Bool → List Char → List Char → List (List Char)
  | _, acc, [] => if acc.isEmpty then [] else [acc.reverse]
  | true, acc, c :: cs =>
    if c = '"' then (c :: acc).reverse :: Asm.tokensFrom false [] cs
    else Asm.tokensFrom true (c :: acc) cs
  | false, acc, c :: cs =>
    let read : List (List Char) := if acc.isEmpty then [] else [acc.reverse]
    if c = ';' then read
    else if c = '"' then read ++ Asm.tokensFrom true [c] cs
    else if Asm.isBlank c then read ++ Asm.tokensFrom false [] cs
    else if Asm.isMark c then read ++ [c] :: Asm.tokensFrom false [] cs
    else Asm.tokensFrom false (c :: acc) cs

/-- The value of a digit in a base up to 16. -/
def Asm.digit (base : Nat) (c : Char) : Option Nat :=
  let v :=
    if '0' ≤ c ∧ c ≤ '9' then c.toNat - 48
    else if 'A' ≤ c ∧ c ≤ 'F' then c.toNat - 55
    else if 'a' ≤ c ∧ c ≤ 'f' then c.toNat - 87
    else 16
  if v < base then some v else none

/-- A numeral, most significant digit first, after `acc`. -/
def Asm.digits (base : Nat) : Nat → List Char → Option Nat
  | acc, [] => some acc
  | acc, c :: cs =>
    match Asm.digit base c with
    | some v => Asm.digits base (acc * base + v) cs
    | none => none

/-- A decimal numeral of at least one digit. -/
def Asm.decimal (t : List Char) : Option Nat := if t.isEmpty then none else Asm.digits 10 0 t

/-- A decimal integer, with `-` before a negative one (R65). -/
def Asm.integer : List Char → Option Int
  | '-' :: t => (Asm.decimal t).map fun n => -(n : Int)
  | t => (Asm.decimal t).map fun n => (n : Int)

/-- A hexadecimal value `0x…` of at least one digit (R65). -/
def Asm.hex : List Char → Option Nat
  | '0' :: 'x' :: c :: cs => Asm.digits 16 0 (c :: cs)
  | _ => none

/-- The characters of a quoted bit string (R65). -/
def Asm.quoted : List Char → Option (List Char)
  | '"' :: t =>
    match t.reverse with
    | '"' :: r => some r.reverse
    | _ => none
  | _ => none

/-- A `<data>` operand (R65). -/
def Asm.dataOperand (t : List Char) : Option DataOperand :=
  match Asm.quoted t with
  | some s => some (.bits s)
  | none => (Asm.hex t).map .hex

/-- A `<cw>` operand (R65). -/
def Asm.cwOperand (t : List Char) : Option CwOperand :=
  if t = ['r', 's', 'p', '_', 'c', 'w'] then some .rspCw
  else
    match Asm.quoted t with
    | some s => some (.bits s)
    | none => (Asm.hex t).map .hex

/-- The positions of an INJECT after the first one: `, q` up to the closing brace that ends the line. -/
def Asm.morePositions : List (List Char) → Option (List Int)
  | [[c]] => if c.toNat = 125 then some [] else none
  | [','] :: q :: rest =>
    match Asm.integer q, Asm.morePositions rest with
    | some v, some vs => some (v :: vs)
    | _, _ => none
  | _ => none

/-- The list of an INJECT from its opening brace to the end of the line. -/
def Asm.positions : List (List Char) → Option (List Int)
  | [c] :: rest =>
    if c.toNat = 123 then
      match rest with
      | [[d]] => if d.toNat = 125 then some [] else none
      | q :: more =>
        match Asm.integer q, Asm.morePositions more with
        | some v, some vs => some (v :: vs)
        | _, _ => none
      | [] => none
    else none
  | _ => none

/-- The statement that the tokens of a line spell (R64). -/
def Asm.statement : List (List Char) → Option Stmt
  | [['R', 'E', 'S', 'E', 'T']] => some .reset
  | [['I', 'D', 'L', 'E']] => some (.idle 1)
  | [['I', 'D', 'L', 'E'], t] => (Asm.decimal t).map .idle
  | [['E', 'N', 'C', 'O', 'D', 'E'], d] => (Asm.dataOperand d).map .encode
  | [['D', 'E', 'C', 'O', 'D', 'E'], c] => (Asm.cwOperand c).map .decode
  | [['.', 'c', 'm', 'd'], h] => (Asm.hex h).map .cmd
  | [['F', 'L', 'I', 'P'], c, [','], q] =>
    match Asm.cwOperand c, Asm.integer q with
    | some c', some q' => some (.flip c' q')
    | _, _ => none
  | ['I', 'N', 'J', 'E', 'C', 'T'] :: c :: [','] :: rest =>
    match Asm.cwOperand c, Asm.positions rest with
    | some c', some qs => some (.inject c' qs)
    | _, _ => none
  | _ => none

/-- A line: nothing, a statement, or no statement of R64. DESIGN CHOICE (log entry 9): a line that is
empty, blank or a comment alone is no statement and is skipped; R64 is silent on such lines. -/
def Asm.line (l : List Char) : Except LineError (Option Stmt) :=
  match Asm.tokensFrom false [] l with
  | [] => .ok none
  | t :: ts =>
    match Asm.statement (t :: ts) with
    | some s => .ok (some s)
    | none => .error .notAStatement

/-- The lines of a text, given the characters of the line being read, newest first. -/
def Asm.linesFrom : List Char → List Char → List (List Char)
  | acc, [] => [acc.reverse]
  | acc, c :: cs =>
    if c = '\n' then acc.reverse :: Asm.linesFrom [] cs else Asm.linesFrom (c :: acc) cs

/-- The statements of the lines, in order; the first line that is no statement refuses the text. -/
def Asm.statements : List (List Char) → Except LineError (List Stmt)
  | [] => .ok []
  | l :: ls =>
    match Asm.line l, Asm.statements ls with
    | .error e, _ => .error e
    | .ok _, .error e => .error e
    | .ok none, .ok ss => .ok ss
    | .ok (some s), .ok ss => .ok (s :: ss)

/-- The program of a text (R64). -/
def assemble (text : List Char) : Except LineError (List Stmt) :=
  Asm.statements (Asm.linesFrom [] text)

end Sys2Proof.Machine
end

