-- ==== Sys2Proof/Safety.lean ====
section
/-! DEFINITION. What a good state is: every vector within the width of its instance, and the laws of
the response registers (R32) once a reset has been seen. -/

namespace Sys2Proof.Machine

/-- The ports carry no more than their widths (R19). -/
abbrev Inputs.Fits (w : Width) (p : Inputs) : Prop :=
  p.cmdData.toNat < 2 ^ w.k ∧ p.cmdCw.toNat < 2 ^ w.n ∧ p.cmdPos.toNat < 2 ^ w.m

/-- The registers hold no more than their widths (R20). -/
abbrev Response.Fits (w : Width) (r : Response) : Prop :=
  r.syn.toNat < 2 ^ w.m ∧ r.pos.toNat < 2 ^ w.m ∧ r.data.toNat < 2 ^ w.k ∧ r.cw.toNat < 2 ^ w.n

/-- The invariants of the response registers (R32), one conjunct for each item. -/
abbrev Response.Lawful (w : Width) (r : Response) : Prop :=
  (r.err ≠ 3#2 ∧ r.status ≠ 3#2) ∧
  (r.err ≠ 0#2 → r.status = 0#2 ∧ r.syn = 0#6 ∧ r.pos = 0#6 ∧ r.data = 0#32 ∧ r.cw = 0#38) ∧
  (r.status ≠ 0#2 → r.op = 1#2) ∧
  (r.pos ≠ 0#6 → r.status = 1#2 ∧ r.pos = r.syn ∧ 1 ≤ r.pos.toNat ∧ r.pos.toNat ≤ w.n) ∧
  (r.status = 2#2 → w.n < r.syn.toNat)

/-- Every vector of the state is within the width of its instance. -/
abbrev State.Fits (s : State) : Prop := s.inp.Fits s.width ∧ s.rsp.Fits s.width

/-- The invariant that every step keeps. Before the first reset edge the registers hold no value
(R30), so nothing is said of them but their width. -/
abbrev State.Inv (s : State) : Prop :=
  s.Fits ∧ (s.resetSeen = true → s.rsp.Lawful s.width)

/-- The host presents the command `i` for the coming edge (R51): `cmd_valid = 1`, `rst = 0`. -/
abbrev State.Presents (s : State) (i : Instr) : Prop :=
  s.inp.rst = false ∧ s.inp.cmdValid = true ∧ s.inp.command s.width = i

/-- The registers can be read: a reset edge has been seen (R30) and no code is reserved (R58). -/
abbrev State.Readable (s : State) : Prop := s.resetSeen = true ∧ s.holdsReservedCode = false

end Sys2Proof.Machine
end

