-- ==== Sys2Proof/Certificates/Slice0/Obligations.lean ====
section
/-! DEFINITION. The statements for the provers. Each docstring names the rules of spec/ it formalises.
A statement on a state holds for each of the three instances: the width is a field of the state. -/

open Sys2Proof Sys2Proof.Machine

/-! Encoding -/

/-- R53: `CMD[1:0]` selects the operation; the operand fields stand where R52 places them, and an
ignored field does not matter (R54). That a number of more than `W` bits is refused as `tooWide` is the
model's inference (log entry 12). -/
def Obligations.WordSelectsItsOperation : Prop :=
  ∀ w : Width,
    (∀ c : CmdWord, c.toNat < 2 ^ w.cmdBits →
      (c.extractLsb' 0 2 = 0#2 →
        decode w c = .ok (.encode ((c.extractLsb' 2 w.k).setWidth 32))) ∧
      (c.extractLsb' 0 2 = 1#2 →
        decode w c = .ok (.decode ((c.extractLsb' (w.k + 2) w.n).setWidth 38))) ∧
      (c.extractLsb' 0 2 = 2#2 →
        decode w c = .ok (.flip ((c.extractLsb' (w.k + 2) w.n).setWidth 38)
          ((c.extractLsb' (w.k + w.n + 2) w.m).setWidth 6))) ∧
      (c.extractLsb' 0 2 = 3#2 → decode w c = .ok .illegalOp)) ∧
    (∀ (c : CmdWord) (i : Instr), decode w c = .ok i → WellFormed w i = true) ∧
    (∀ v : Nat, 2 ^ w.cmdBits ≤ v → decodeNat w v = .error .tooWide)

/-- Decoding the word of a command that fits the instance gives the command back, with every operand
at every value its port can carry (R52, R53); the word has at most `W` bits. -/
def Obligations.DecodeOfEncodeIsIdentity : Prop :=
  ∀ (w : Width) (i : Instr), WellFormed w i = true →
    decode w (encode w i) = .ok i ∧ (encode w i).toNat < 2 ^ w.cmdBits

/-- R52: where the four fields stand in the packed word and how wide it is; a word is exactly its four
fields, and four fields that fit are exactly those of their word. -/
def Obligations.PackedWordIsItsFields : Prop :=
  (Width.k8.cmdBits = 26 ∧ Width.k16.cmdBits = 44 ∧ Width.k32.cmdBits = 78) ∧
  ∀ w : Width, w.cmdBits = 2 + w.k + w.n + w.m ∧
    (∀ c : CmdWord, unpack w c =
      ⟨c.extractLsb' 0 2, (c.extractLsb' 2 w.k).setWidth 32,
        (c.extractLsb' (w.k + 2) w.n).setWidth 38,
        (c.extractLsb' (w.k + w.n + 2) w.m).setWidth 6⟩) ∧
    (∀ c : CmdWord, c.toNat < 2 ^ w.cmdBits → pack w (unpack w c) = c) ∧
    (∀ f : Fields, f.data.toNat < 2 ^ w.k → f.cw.toNat < 2 ^ w.n → f.pos.toNat < 2 ^ w.m →
      unpack w (pack w f) = f)

/-- Words of the programs P1, P4, P5 and P6 of spec/95_test_vectors.md decode to the commands their
lines spell. -/
def Obligations.SpecWordsDecode : Prop :=
  (decode .k8 0x000012C#78).toOption = some (.encode 0x4B#32) ∧
  (decode .k8 0x1535802#78).toOption = some (.flip 0x4D6#38 5#6) ∧
  (decode .k8 0x0131801#78).toOption = some (.decode 0x4C6#38) ∧
  (decode .k8 0x3FFFFFF#78).toOption = some .illegalOp ∧
  (decode .k16 0x80A8E840002#78).toOption = some (.flip 0x02A3A1#38 16#6) ∧
  (decode .k32 0x26DF56DDB9DC00000002#78).toOption = some (.flip 0x37D5B76E77#38 38#6)

/-! One edge -/

/-- R125, R51: when the host presents a command, the step runs `exec` of exactly that command, and then
the host's cycle; and a word placed on the ports by `withFetchWord` presents the command it decodes
to. -/
def Obligations.StepRunsThePresentedCommand : Prop :=
  (∀ (s : State) (i : Instr), s.holdsReservedCode = false → s.Presents i →
    step s = andThen (exec i s) State.cycle) ∧
  (∀ (s : State) (v : Nat) (i : Instr), v < 2 ^ s.width.cmdBits → decodeNat s.width v = .ok i →
    (s.withFetchWord s.width.cmdBits v).Presents i ∧ WellFormed s.width i = true)

/-- R17, R22, R133: every command answers a next state, which is the old one with a response in its
registers that is valid and names the operation; the old response does not matter. -/
def Obligations.EveryCommandWritesOnlyTheResponse : Prop :=
  ∀ (i : Instr) (s : State),
    (∃ r : Response, exec i s = .next { s with rsp := r } ∧ r.valid = true ∧ r.op = i.op) ∧
    (∀ r' : Response, exec i { s with rsp := r' } = exec i s)

/-- R17: the frame of the four commands. -/
def Obligations.CommandFrame : Prop :=
  ∀ (i : Instr) (s t : State), exec i s = .next t →
    t.width = s.width ∧ t.inp = s.inp ∧ t.resetSeen = s.resetSeen ∧ t.pending = s.pending ∧
      t.program = s.program ∧ t.record = s.record ∧ t.driving = s.driving

/-- R132, R133: after a reset a step with a command completes, and the response of that command, marked
valid, is in the registers after its one edge. -/
def Obligations.ResponseAfterOneEdge : Prop :=
  ∀ (s : State) (i : Instr), s.Readable → s.Presents i →
    ∃ (r : Response) (t : State), exec i s = .next { s with rsp := r } ∧ step s = .next t ∧
      t.rsp = r ∧ t.rsp.valid = true ∧ t.width = s.width

/-- R31, R41: the response to a command depends on the width and the command, and on nothing else that
the state holds. -/
def Obligations.ResponseDependsOnlyOnTheCommand : Prop :=
  ∀ (i : Instr) (s s' : State), s.width = s'.width →
    ∃ r : Response, exec i s = .next { s with rsp := r } ∧ exec i s' = .next { s' with rsp := r }

/-- R33: a port the edge does not read never matters. Two assignments of the ports that agree on `rst`,
on `cmd_valid` unless `rst = 1`, and on the op and the fields that the accepted command reads give the
same step. -/
def Obligations.UnreadPortsNeverMatter : Prop :=
  ∀ (s : State) (p : Inputs), p.rst = s.inp.rst →
    (s.inp.rst = false → p.cmdValid = s.inp.cmdValid) →
    (s.inp.rst = false → s.inp.cmdValid = true →
      p.cmdOp = s.inp.cmdOp ∧
      (s.inp.cmdOp = 0#2 → p.cmdData = s.inp.cmdData) ∧
      (s.inp.cmdOp = 1#2 ∨ s.inp.cmdOp = 2#2 → p.cmdCw = s.inp.cmdCw) ∧
      (s.inp.cmdOp = 2#2 → p.cmdPos = s.inp.cmdPos)) →
    step { s with inp := p } = step s

/-- R29, R127, R128: an edge with `rst = 1` completes and leaves every response register at its reset
value and the width as it was, whatever command stands on the other ports. -/
def Obligations.ResetEdgeClearsTheRegisters : Prop :=
  ∀ s : State, s.holdsReservedCode = false → s.inp.rst = true →
    (∃ t : State, step s = .next t ∧
      t.rsp = ⟨false, 0#2, 0#2, 0#2, 0#6, 0#6, 0#32, 0#38⟩ ∧ t.resetSeen = true ∧
      t.width = s.width) ∧
    (∀ p : Inputs, p.rst = true → step { s with inp := p } = step s)

/-- R126: an idle edge completes after a reset, clears `rsp_valid` and holds every other register. -/
def Obligations.IdleEdgeHoldsTheResponse : Prop :=
  ∀ s : State, s.inp.rst = false → s.inp.cmdValid = false →
    (s.Readable → ∃ t : State, step s = .next t) ∧
    (∀ t : State, step s = .next t → t.rsp.valid = false ∧ t.rsp = { s.rsp with valid := false })

/-- R21: `rsp_valid` is 0 after a reset edge and otherwise what `cmd_valid` was, so it is 1 for the one
cycle after an accepted command; the other registers keep their values until the next command or
reset. -/
def Obligations.ValidFollowsCmdValid : Prop :=
  ∀ s t : State, step s = .next t →
    (s.inp.rst = true → t.rsp.valid = false) ∧
    (s.inp.rst = false → t.rsp.valid = s.inp.cmdValid) ∧
    (s.inp.rst = false → s.inp.cmdValid = false → t.rsp = { s.rsp with valid := false })

/-- R16, R75: no step changes the data width, from which every layout constant is computed. -/
def Obligations.StepKeepsTheWidth : Prop :=
  ∀ s t : State, step s = .next t → t.width = s.width

/-- R41: reading and driving, all that the host does between two edges, changes no register; its record
only grows at its end. -/
def Obligations.HostCycleKeepsTheRegisters : Prop :=
  ∀ s t : State, s.cycle = .next t →
    t.rsp = s.rsp ∧ t.width = s.width ∧ t.resetSeen = s.resetSeen ∧
      ∃ es : List HostEvent, t.record = s.record ++ es

/-- R30, R130: in every state before the first reset edge a read of the response registers faults, as
does the operand `rsp_cw`, and only an edge with `rst = 1` ends that. That this holds for a response
too which a command has written before that edge is the model's inference (log entry 10). The allowed
side (R138): readable registers are read as they are. -/
def Obligations.UnresetRegistersAreUnreadable : Prop :=
  (∀ (w : Width) (r : Response), (State.powerUp w r).resetSeen = false) ∧
  (∀ s : State, s.resetSeen = false → s.readResponse = .error .readBeforeReset) ∧
  (∀ s : State, s.Readable → s.readResponse = .ok s.rsp) ∧
  (∀ (s : State) (d : Drive), s.resetSeen = false → d.cmdCw = .rspCw →
    s.drive d = .fault .readBeforeReset) ∧
  (∀ s t : State, s.resetSeen = false → step s = .next t → t.resetSeen = s.inp.rst)

/-- R58: a state that holds a reserved code after a reset is a fault of the model, and no edge makes
one. -/
def Obligations.ReservedCodeIsAFault : Prop :=
  (∀ s : State, s.resetSeen = true → (s.rsp.err = 3#2 ∨ s.rsp.status = 3#2) →
    step s = .fault .reservedCode) ∧
  (∀ s t : State, step s = .next t → s.resetSeen = true ∨ s.inp.rst = true →
    t.rsp.err ≠ 3#2 ∧ t.rsp.status ≠ 3#2)

/-- R130, R131: from power-up, whatever the registers hold, a program that is the one line RESET leads
in one step to the state after reset of the instance. That the host's side is idle and empty there is the
model's choice (log entries 2 and 5). -/
def Obligations.PowerUpThenResetIsReset : Prop :=
  ∀ (w : Width) (r : Response), ∃ s : State,
    (State.powerUp w r).load [.reset] = .next s ∧ step s = .next (State.resetOf w)

/-- Every step keeps the invariant: vectors within the width of the instance, and R32 once a reset has
been seen. -/
def Obligations.StepKeepsTheInvariant : Prop :=
  ∀ s t : State, s.Inv → step s = .next t → t.Inv

/-- R29: the state after reset of every instance meets the invariant and holds the reset values. That
`State.reset` is the one of `K = 8` is the model's choice (log entry 1). -/
def Obligations.ResetMeetsTheInvariant : Prop :=
  (∀ w : Width, (State.resetOf w).Inv ∧ (State.resetOf w).width = w ∧
    (State.resetOf w).rsp = ⟨false, 0#2, 0#2, 0#2, 0#6, 0#6, 0#32, 0#38⟩) ∧
  State.reset = State.resetOf .k8

/-- R32: after any sequence of edges that starts with a reset edge, from any state the model does not
fault, the five laws of the response registers hold. -/
def Obligations.LawsAfterAnyEdgesFromReset : Prop :=
  ∀ (s t : State) (n : Nat), s.inp.rst = true →
    Host.Core.run core (n + 1) s = .next t →
    (t.rsp.err ≠ 3#2 ∧ t.rsp.status ≠ 3#2) ∧
    (t.rsp.err ≠ 0#2 → t.rsp.status = 0#2 ∧ t.rsp.syn = 0#6 ∧ t.rsp.pos = 0#6 ∧
      t.rsp.data = 0#32 ∧ t.rsp.cw = 0#38) ∧
    (t.rsp.status ≠ 0#2 → t.rsp.op = 1#2) ∧
    (t.rsp.pos ≠ 0#6 → t.rsp.status = 1#2 ∧ t.rsp.pos = t.rsp.syn ∧ 1 ≤ t.rsp.pos.toNat ∧
      t.rsp.pos.toNat ≤ t.width.n) ∧
    (t.rsp.status = 2#2 → t.width.n < t.rsp.syn.toNat)

/-! Layout -/

/-- R67: `M` is the smallest `m` with `2^m >= K + m + 1`, for every `K`; 4, 5 and 6 for the three
instances; and a `K` that is not supported is InvalidWidth before that. -/
def Obligations.ParityCountIsSmallest : Prop :=
  (∀ k : Nat, k + parityCount k + 1 ≤ 2 ^ parityCount k ∧
    ∀ m : Nat, m < parityCount k → ¬ (k + m + 1 ≤ 2 ^ m)) ∧
  (∀ w : Width, w.m = parityCount w.k) ∧
  (Width.k8.m = 4 ∧ Width.k16.m = 5 ∧ Width.k32.m = 6) ∧
  (∀ k : Nat, k ≠ 8 → k ≠ 16 → k ≠ 32 → elaborate k = .error .invalidWidth)

/-- R68, R69, R70, with R10's `isPow2`: codeword length, parity positions, data positions and their
masks. -/
def Obligations.PositionTables : Prop :=
  (∀ i : Nat, isPow2 i = true ↔ ∃ j : Nat, i = 2 ^ j) ∧
  (Width.k8.n = 12 ∧ Width.k16.n = 21 ∧ Width.k32.n = 38) ∧
  (∀ w : Width, w.n = w.k + w.m ∧ w.n + 1 ≤ 2 ^ w.m ∧
    w.paritySet = (List.range w.m).map (fun j => 2 ^ j) ∧
    (∀ i : Nat, 1 ≤ i → i ≤ w.n → (i ∈ w.paritySet ↔ isPow2 i = true)) ∧
    (∀ i : Nat, i ∈ w.dataPositions ↔ 1 ≤ i ∧ i ≤ w.n ∧ isPow2 i = false) ∧
    w.dataPositions = (List.range' 1 w.k).map w.dataPos ∧
    w.dataPositions.Pairwise (fun a b => a < b)) ∧
  (Width.k8.paritySet = [1, 2, 4, 8] ∧ Width.k16.paritySet = [1, 2, 4, 8, 16] ∧
    Width.k32.paritySet = [1, 2, 4, 8, 16, 32]) ∧
  Width.k8.dataPositions = [3, 5, 6, 7, 9, 10, 11, 12] ∧
  Width.k16.dataPositions = [3, 5, 6, 7, 9, 10, 11, 12, 13, 14, 15, 17, 18, 19, 20, 21] ∧
  Width.k32.dataPositions = [3, 5, 6, 7, 9, 10, 11, 12, 13, 14, 15, 17, 18, 19, 20, 21, 22, 23, 24,
    25, 26, 27, 28, 29, 30, 31, 33, 34, 35, 36, 37, 38] ∧
  (maskOf 38 Width.k8.dataPositions = 0xF74#38 ∧ maskOf 38 Width.k8.paritySet = 0x08B#38) ∧
  (maskOf 38 Width.k16.dataPositions = 0x1F7F74#38 ∧ maskOf 38 Width.k16.paritySet = 0x00808B#38) ∧
  (maskOf 38 Width.k32.dataPositions = 0x3F7FFF7F74#38 ∧
    maskOf 38 Width.k32.paritySet = 0x008000808B#38)

/-- R71: `DataIndex(i) = i - floor(log2(i)) - 1` inverts `DataPos` at every data position. -/
def Obligations.DataIndexInvertsDataPos : Prop :=
  ∀ w : Width,
    (∀ j : Nat, 1 ≤ j → j ≤ w.k → Width.dataIndex (w.dataPos j) = j) ∧
    (∀ i ∈ w.positions, isPow2 i = false →
      1 ≤ Width.dataIndex i ∧ Width.dataIndex i ≤ w.k ∧ w.dataPos (Width.dataIndex i) = i ∧
        Width.dataIndex i = i - Nat.log2 i - 1)

/-- R72, R73: the coverage masks, the data bits covered, the coverage test as the spec writes it and as
a bit of the position, and which coverage sets a position is in. -/
def Obligations.CoverageTables : Prop :=
  ((List.range 4).map (fun j => maskOf 38 (Width.k8.cov (2 ^ j))) =
    [0x555#38, 0x666#38, 0x878#38, 0xF80#38]) ∧
  ((List.range 5).map (fun j => maskOf 38 (Width.k16.cov (2 ^ j))) =
    [0x155555#38, 0x066666#38, 0x187878#38, 0x007F80#38, 0x1F8000#38]) ∧
  ((List.range 6).map (fun j => maskOf 38 (Width.k32.cov (2 ^ j))) =
    [0x1555555555#38, 0x2666666666#38, 0x3878787878#38, 0x007F807F80#38, 0x007FFF8000#38,
      0x3F80000000#38]) ∧
  ((List.range 4).map (fun j => Width.k8.coveredData (2 ^ j)) =
    [[1, 2, 4, 5, 7], [1, 3, 4, 6, 7], [2, 3, 4, 8], [5, 6, 7, 8]]) ∧
  ((List.range 5).map (fun j => Width.k16.coveredData (2 ^ j)) =
    [[1, 2, 4, 5, 7, 9, 11, 12, 14, 16], [1, 3, 4, 6, 7, 10, 11, 13, 14],
      [2, 3, 4, 8, 9, 10, 11, 15, 16], [5, 6, 7, 8, 9, 10, 11], [12, 13, 14, 15, 16]]) ∧
  ((List.range 6).map (fun j => Width.k32.coveredData (2 ^ j)) =
    [[1, 2, 4, 5, 7, 9, 11, 12, 14, 16, 18, 20, 22, 24, 26, 27, 29, 31],
      [1, 3, 4, 6, 7, 10, 11, 13, 14, 17, 18, 21, 22, 25, 26, 28, 29, 32],
      [2, 3, 4, 8, 9, 10, 11, 15, 16, 17, 18, 23, 24, 25, 26, 30, 31, 32],
      [5, 6, 7, 8, 9, 10, 11, 19, 20, 21, 22, 23, 24, 25, 26],
      List.range' 12 15, List.range' 27 6]) ∧
  ∀ w : Width,
    (∀ (p i : Nat), i ∈ w.cov p ↔ 1 ≤ i ∧ i ≤ w.n ∧ i &&& p = p) ∧
    (∀ j < w.m, ∀ i ∈ w.positions, (i ∈ w.cov (2 ^ j) ↔ i.testBit j = true)) ∧
    (∀ p ∈ w.paritySet, ∀ q ∈ w.paritySet, (p ∈ w.cov q ↔ p = q)) ∧
    (∀ i ∈ w.positions, isPow2 i = false →
      2 ≤ (w.paritySet.filter fun p => decide (i ∈ w.cov p)).length)

/-! Encoder -/

/-- R77: `Place` holds the data bits in order at the data positions, and 0 at the parity positions and
above `N`. -/
def Obligations.PlaceFillsTheDataPositions : Prop :=
  ∀ (w : Width) (d : DataWord),
    (∀ j : Nat, 1 ≤ j → j ≤ w.k → bitAt (Codec.place w d) (w.dataPos j) = bitAt d j) ∧
    (∀ p ∈ w.paritySet, bitAt (Codec.place w d) p = false) ∧
    (Codec.place w d).toNat < 2 ^ w.n

/-- R78: `Encode` writes at each parity position the XOR of the placed vector over its coverage set
and leaves the other positions; the order of the parity positions does not matter. -/
def Obligations.EncodeWritesTheParities : Prop :=
  ∀ (w : Width) (d : DataWord),
    (∀ p ∈ w.paritySet,
      bitAt (Codec.encode w d) p = xorOver (w.cov p) (bitAt (Codec.place w d))) ∧
    (∀ i ∈ w.positions, i ∉ w.paritySet →
      bitAt (Codec.encode w d) i = bitAt (Codec.place w d) i) ∧
    (∀ l : List Nat, l.Perm w.paritySet →
      l.foldl (fun c p => putBit c p (xorOver (w.cov p) (bitAt c))) (Codec.place w d) =
        Codec.encode w d)

/-- R79: the closed form of the codeword, for every instance and written out for `K = 8`. -/
def Obligations.EncodeClosedForm : Prop :=
  (∀ (w : Width) (d : DataWord),
    (∀ p ∈ w.paritySet, bitAt (Codec.encode w d) p =
      xorOver ((w.cov p).filter fun i => !isPow2 i) (fun i => bitAt d (Width.dataIndex i))) ∧
    (∀ i ∈ w.positions, isPow2 i = false →
      bitAt (Codec.encode w d) i = bitAt d (Width.dataIndex i))) ∧
  (∀ d : DataWord,
    bitAt (Codec.encode .k8 d) 1 =
      xor (bitAt d 1) (xor (bitAt d 2) (xor (bitAt d 4) (xor (bitAt d 5) (bitAt d 7)))) ∧
    bitAt (Codec.encode .k8 d) 2 =
      xor (bitAt d 1) (xor (bitAt d 3) (xor (bitAt d 4) (xor (bitAt d 6) (bitAt d 7)))) ∧
    bitAt (Codec.encode .k8 d) 4 =
      xor (bitAt d 2) (xor (bitAt d 3) (xor (bitAt d 4) (bitAt d 8))) ∧
    bitAt (Codec.encode .k8 d) 8 =
      xor (bitAt d 5) (xor (bitAt d 6) (xor (bitAt d 7) (bitAt d 8))) ∧
    [3, 5, 6, 7, 9, 10, 11, 12].map (bitAt (Codec.encode .k8 d)) =
      [1, 2, 3, 4, 5, 6, 7, 8].map (bitAt d))

/-- R80: ENCODE. Its words, its effect on every data word, its corner cases and its example. -/
def Obligations.EncodeCommand : Prop :=
  (∀ (w : Width) (c : CmdWord), c.toNat < 2 ^ w.cmdBits → c.extractLsb' 0 2 = 0#2 →
    decode w c = .ok (.encode ((c.extractLsb' 2 w.k).setWidth 32))) ∧
  (∀ (d : DataWord) (s : State), d.toNat < 2 ^ s.width.k →
    exec (.encode d) s =
      .next { s with rsp := ⟨true, 0#2, 0#2, 0#2, 0#6, 0#6, 0#32, Codec.encode s.width d⟩ }) ∧
  (∀ w : Width, Codec.encode w 0#32 = 0#38) ∧
  Codec.encode .k8 0xFF#32 = 0xF77#38 ∧ Codec.encode .k16 0xFFFF#32 = 0x1FFFFE#38 ∧
  Codec.encode .k32 0xFFFFFFFF#32 = 0x3F7FFFFFF4#38 ∧ Codec.encode .k8 0x4B#32 = 0x4D6#38 ∧
  dataString .k8 0x4B#32 = ['1', '1', '0', '1', '0', '0', '1', '0'] ∧
  codewordString .k8 0x4D6#38 = ['0', '1', '1', '0', '1', '0', '1', '1', '0', '0', '1', '0']

/-- R81: a codeword has syndrome 0 and holds its data, so a DECODE of it reports no error and returns
the data. -/
def Obligations.RoundTrip : Prop :=
  ∀ (s : State) (d : DataWord), d.toNat < 2 ^ s.width.k →
    Codec.syndrome s.width (Codec.encode s.width d) = 0#6 ∧
    Codec.extract s.width (Codec.encode s.width d) = d ∧
    exec (.decode (Codec.encode s.width d)) s =
      .next { s with rsp := ⟨true, 1#2, 0#2, 0#2, 0#6, 0#6, d, Codec.encode s.width d⟩ }

/-- R82: `Encode` is linear, the encoding of a data word is the XOR of the unit encodings of its set
bits, and the unit encodings for `K = 8`. -/
def Obligations.EncodeIsLinear : Prop :=
  (∀ (w : Width) (a b : DataWord),
    Codec.encode w (a ^^^ b) = Codec.encode w a ^^^ Codec.encode w b) ∧
  (∀ w : Width, Codec.encode w 0#32 = 0#38) ∧
  (∀ (w : Width) (d : DataWord), Codec.encode w d =
    ((List.range' 1 w.k).filter (bitAt d)).foldl
      (fun c j => c ^^^ Codec.encode w (unitAt 32 j)) 0#38) ∧
  (List.range' 1 8).map (fun j => Codec.encode .k8 (unitAt 32 j)) =
    [0x007#38, 0x019#38, 0x02A#38, 0x04B#38, 0x181#38, 0x282#38, 0x483#38, 0x888#38]

/-! Decoder -/

/-- R84, R86: bit `j` of the syndrome is the XOR of the received codeword over `Cov(2^j)`, which is the
parity of the codeword under the mask of that set; and the value of the syndrome. -/
def Obligations.SyndromeBits : Prop :=
  ∀ (w : Width) (c : CodeWord),
    (∀ j : Nat, j < w.m →
      (Codec.syndrome w c).getLsbD j = xorOver (w.cov (2 ^ j)) (bitAt c) ∧
      (Codec.syndrome w c).getLsbD j =
        xorOver (List.range' 1 38) (bitAt (c &&& maskOf 38 (w.cov (2 ^ j))))) ∧
    (Codec.syndrome w c).toNat =
      ((List.range w.m).map fun j => (xorOver (w.cov (2 ^ j)) (bitAt c)).toNat * 2 ^ j).sum

/-- R87: the vectors with syndrome 0 are exactly the codewords, one for each data word. -/
def Obligations.ZeroSyndromeIsCodeword : Prop :=
  ∀ (w : Width),
    (∀ c : CodeWord, c.toNat < 2 ^ w.n →
      (Codec.syndrome w c = 0#6 ↔ c = Codec.encode w (Codec.extract w c))) ∧
    (∀ c : CodeWord, c.toNat < 2 ^ w.n →
      (Codec.syndrome w c = 0#6 ↔ ∃ d : DataWord, d.toNat < 2 ^ w.k ∧ c = Codec.encode w d)) ∧
    (∀ a b : DataWord, a.toNat < 2 ^ w.k → b.toNat < 2 ^ w.k →
      Codec.encode w a = Codec.encode w b → a = b)

/-- R88: the syndrome is linear, the syndrome of a single position is the position, and the syndrome of
a codeword with a set of flipped positions is the XOR of their numbers. -/
def Obligations.SyndromeIsLinear : Prop :=
  ∀ w : Width,
    (∀ a b : CodeWord,
      Codec.syndrome w (a ^^^ b) = Codec.syndrome w a ^^^ Codec.syndrome w b) ∧
    (∀ i ∈ w.positions, (Codec.syndrome w (unitAt 38 i)).toNat = i) ∧
    (∀ (c : CodeWord) (F : List Nat), Codec.syndrome w c = 0#6 → F.Nodup →
      (∀ i ∈ F, i ∈ w.positions) →
      (Codec.syndrome w (c ^^^ maskOf 38 F)).toNat = F.foldl (fun a i => a ^^^ i) 0)

/-- R89: the range of the syndrome, with at most one flip and in general, and the number of pairs of
flipped positions that give an out-of-range one. -/
def Obligations.SyndromeRange : Prop :=
  (∀ (w : Width) (c : CodeWord), (Codec.syndrome w c).toNat ≤ 2 ^ w.m - 1) ∧
  (∀ (w : Width) (d : DataWord), (Codec.syndrome w (Codec.encode w d)).toNat ≤ w.n ∧
    ∀ q ∈ w.positions, (Codec.syndrome w (Codec.flip (Codec.encode w d) q)).toNat ≤ w.n) ∧
  ([Width.k8, Width.k16, Width.k32].map fun w =>
    (((w.positions.product w.positions).filter fun p => decide (p.1 < p.2)).length,
      ((w.positions.product w.positions).filter fun p => decide (p.1 < p.2 ∧
        w.n < (Codec.syndrome w (unitAt 38 p.1 ^^^ unitAt 38 p.2)).toNat)).length)) =
    [(66, 15), (210, 60), (703, 175)]

/-- R95, R90, R91: DECODE. Its words, and its effect on every codeword for each of the three
classifications, the corrected codeword written out, with the corner cases and the example. -/
def Obligations.DecodeCommand : Prop :=
  (∀ (w : Width) (c : CmdWord), c.toNat < 2 ^ w.cmdBits → c.extractLsb' 0 2 = 1#2 →
    decode w c = .ok (.decode ((c.extractLsb' (w.k + 2) w.n).setWidth 38))) ∧
  (∀ (c : CodeWord) (s : State), c.toNat < 2 ^ s.width.n →
    ((Codec.syndrome s.width c).toNat = 0 →
      exec (.decode c) s = .next { s with rsp :=
        ⟨true, 1#2, 0#2, 0#2, Codec.syndrome s.width c, 0#6, Codec.extract s.width c, c⟩ }) ∧
    (1 ≤ (Codec.syndrome s.width c).toNat → (Codec.syndrome s.width c).toNat ≤ s.width.n →
      exec (.decode c) s = .next { s with rsp :=
        ⟨true, 1#2, 0#2, 1#2, Codec.syndrome s.width c, Codec.syndrome s.width c,
          Codec.extract s.width (c ^^^ 1#38 <<< ((Codec.syndrome s.width c).toNat - 1)),
          c ^^^ 1#38 <<< ((Codec.syndrome s.width c).toNat - 1)⟩ }) ∧
    (s.width.n < (Codec.syndrome s.width c).toNat →
      exec (.decode c) s = .next { s with rsp :=
        ⟨true, 1#2, 0#2, 2#2, Codec.syndrome s.width c, 0#6, Codec.extract s.width c, c⟩ })) ∧
  (∀ w : Width, Codec.syndrome w 0#38 = 0#6 ∧ Codec.extract w 0#38 = 0#32 ∧
    classify w (BitVec.ofNat 6 w.n) = .corrected ∧
    classify w (BitVec.ofNat 6 (w.n + 1)) = .uncorrectable ∧
    classify w (BitVec.ofNat 6 (2 ^ w.m - 1)) = .uncorrectable) ∧
  Codec.decodeResponse .k8 0x4C6#38 = ⟨true, 1#2, 0#2, 1#2, 5#6, 5#6, 0x4B#32, 0x4D6#38⟩ ∧
  codewordString .k8 0x4C6#38 = ['0', '1', '1', '0', '0', '0', '1', '1', '0', '0', '1', '0']

/-- R93: `Extract` reads the data positions in order, and no parity position. -/
def Obligations.ExtractReadsTheDataPositions : Prop :=
  ∀ (w : Width) (c : CodeWord),
    (∀ j : Nat, 1 ≤ j → j ≤ w.k → bitAt (Codec.extract w c) j = bitAt c (w.dataPos j)) ∧
    (Codec.extract w c).toNat < 2 ^ w.k ∧
    (∀ p ∈ w.paritySet, Codec.extract w (Codec.flip c p) = Codec.extract w c)

/-- R94: a correction at a parity position leaves the data as received and is still reported. -/
def Obligations.ParityPositionCorrection : Prop :=
  ∀ (s : State) (c : CodeWord), c.toNat < 2 ^ s.width.n →
    (Codec.syndrome s.width c).toNat ∈ s.width.paritySet →
    classify s.width (Codec.syndrome s.width c) = .corrected ∧
    Codec.extract s.width (Codec.correct s.width c (Codec.syndrome s.width c)) =
      Codec.extract s.width c ∧
    exec (.decode c) s = .next { s with rsp :=
      ⟨true, 1#2, 0#2, 1#2, Codec.syndrome s.width c, Codec.syndrome s.width c,
        Codec.extract s.width c, Codec.correct s.width c (Codec.syndrome s.width c)⟩ }

/-- R96: after ENCODE of any data word, FLIP of any one position and DECODE, the data is back and the
position is reported; without the FLIP no error is reported. -/
def Obligations.SingleErrorIsCorrected : Prop :=
  ∀ (s : State) (d : DataWord), d.toNat < 2 ^ s.width.k →
    ∃ s1 : State, exec (.encode d) s = .next s1 ∧ s1.rsp.err = 0#2 ∧
      (∃ s2 : State, exec (.decode s1.rsp.cw) s1 = .next s2 ∧ s2.rsp.data = d ∧
        s2.rsp.pos = 0#6 ∧ s2.rsp.status = 0#2 ∧ s2.rsp.err = 0#2) ∧
      (∀ q : PosWord, 1 ≤ q.toNat → q.toNat ≤ s.width.n →
        ∃ s2 s3 : State, exec (.flip s1.rsp.cw q) s1 = .next s2 ∧ s2.rsp.err = 0#2 ∧
          exec (.decode s2.rsp.cw) s2 = .next s3 ∧ s3.rsp.data = d ∧ s3.rsp.pos = q ∧
          s3.rsp.status = 1#2 ∧ s3.rsp.err = 0#2 ∧ s3.rsp.cw = s1.rsp.cw)

/-- R92: what a DECODE makes of two flipped positions, and of three. -/
def Obligations.MultiBitErrors : Prop :=
  (∀ (w : Width) (d : DataWord) (a b : Nat), d.toNat < 2 ^ w.k → a ∈ w.positions →
    b ∈ w.positions → a ≠ b →
    let c := Codec.encode w d
    let f := Codec.flip (Codec.flip c a) b
    let e := Codec.syndrome w f
    e.toNat = a ^^^ b ∧ e ≠ 0#6 ∧ classify w e ≠ .noError ∧
    (e.toNat ≤ w.n → classify w e = .corrected ∧ e.toNat ≠ a ∧ e.toNat ≠ b ∧
      Codec.correct w f e = c ^^^ maskOf 38 [a, b, e.toNat] ∧
      Codec.extract w (Codec.correct w f e) ≠ d) ∧
    (w.n < e.toNat → classify w e = .uncorrectable ∧ Codec.correct w f e = f ∧
      (Codec.extract w f ≠ d ↔ isPow2 a = false ∨ isPow2 b = false))) ∧
  (∀ d : DataWord, d.toNat < 2 ^ 8 →
    let after := fun F : List Nat => Codec.encode .k8 d ^^^ maskOf 38 F
    let verdict := fun F : List Nat => classify .k8 (Codec.syndrome .k8 (after F))
    verdict [1, 2, 3] = .noError ∧ Codec.extract .k8 (after [1, 2, 3]) ≠ d ∧
    verdict [5, 6, 7] = .corrected ∧ verdict [1, 4, 8] = .uncorrectable)

/-- R108: a report of CORRECTED does not promise the data. The case of program P3: the codeword of
`0x4B` with positions 1 and 2 flipped. -/
def Obligations.CorrectedDoesNotPromiseTheData : Prop :=
  ∃ (d : DataWord) (a b : Nat), d.toNat < 2 ^ 8 ∧ a ∈ Width.k8.positions ∧
    b ∈ Width.k8.positions ∧
    (Codec.decodeResponse .k8 (Codec.flip (Codec.flip (Codec.encode .k8 d) a) b)).status = 1#2 ∧
    (Codec.decodeResponse .k8 (Codec.flip (Codec.flip (Codec.encode .k8 d) a) b)).data ≠ d

/-! Flipper and the reserved operation -/

/-- R98, R101: `Flip` inverts its position and no other; flips of distinct positions give `c XOR f`
where `f` has exactly those positions set, in any order. -/
def Obligations.FlipAlgebra : Prop :=
  (∀ (w : Width) (c : CodeWord) (q i : Nat), q ∈ w.positions → i ∈ w.positions →
    bitAt (Codec.flip c q) i = (if i = q then !bitAt c i else bitAt c i)) ∧
  (∀ (c : CodeWord) (q r : Nat), Codec.flip (Codec.flip c q) q = c ∧
    Codec.flip (Codec.flip c q) r = Codec.flip (Codec.flip c r) q) ∧
  (∀ (w : Width) (c : CodeWord) (F G : List Nat), F.Nodup → (∀ i ∈ F, i ∈ w.positions) →
    G.Perm F →
    G.foldl Codec.flip c = c ^^^ maskOf 38 F ∧
    ∀ i ∈ w.positions, bitAt (maskOf 38 F) i = decide (i ∈ F))

/-- R99, R100: FLIP. Its words, its effect at every position of every codeword, the failing values of
each instance, and its example. -/
def Obligations.FlipCommand : Prop :=
  (∀ (w : Width) (c : CmdWord), c.toNat < 2 ^ w.cmdBits → c.extractLsb' 0 2 = 2#2 →
    decode w c = .ok (.flip ((c.extractLsb' (w.k + 2) w.n).setWidth 38)
      ((c.extractLsb' (w.k + w.n + 2) w.m).setWidth 6))) ∧
  (∀ (c : CodeWord) (q : PosWord) (s : State), c.toNat < 2 ^ s.width.n →
    q.toNat < 2 ^ s.width.m →
    (1 ≤ q.toNat → q.toNat ≤ s.width.n →
      exec (.flip c q) s = .next { s with rsp :=
        ⟨true, 2#2, 0#2, 0#2, 0#6, 0#6, 0#32, c ^^^ 1#38 <<< (q.toNat - 1)⟩ }) ∧
    (q.toNat < 1 ∨ s.width.n < q.toNat →
      exec (.flip c q) s = .next { s with rsp :=
        ⟨true, 2#2, 1#2, 0#2, 0#6, 0#6, 0#32, 0#38⟩ })) ∧
  ((List.range (2 ^ Width.k8.m)).filter (fun q => !positionInRange .k8 q) = [0, 13, 14, 15]) ∧
  ((List.range (2 ^ Width.k16.m)).filter (fun q => !positionInRange .k16 q) =
    0 :: List.range' 22 10) ∧
  ((List.range (2 ^ Width.k32.m)).filter (fun q => !positionInRange .k32 q) =
    0 :: List.range' 39 25) ∧
  Codec.flip 0x4D6#38 5 = 0x4C6#38 ∧ Codec.flip 0x4C6#38 5 = 0x4D6#38 ∧
  codewordString .k8 0x4C6#38 = ['0', '1', '1', '0', '0', '0', '1', '1', '0', '0', '1', '0']

/-- R115, R114: the reserved operation is accepted and writes the error pattern, whatever its operand
fields hold. -/
def Obligations.IllegalOpCommand : Prop :=
  (∀ (w : Width) (c : CmdWord), c.toNat < 2 ^ w.cmdBits → c.extractLsb' 0 2 = 3#2 →
    decode w c = .ok .illegalOp) ∧
  (∀ s : State, exec .illegalOp s = .next { s with rsp :=
    ⟨true, 3#2, 2#2, 0#2, 0#6, 0#6, 0#32, 0#38⟩ }) ∧
  (∀ (i : Instr) (s t : State), exec i s = .next t → t.rsp.err ≠ 0#2 →
    t.rsp = ⟨true, i.op, t.rsp.err, 0#2, 0#6, 0#6, 0#32, 0#38⟩ ∧
      (t.rsp.err = 1#2 ∨ t.rsp.err = 2#2))

/-- R119: an error is not sticky. A command after any response, an error or not, completes with the
response it would have had otherwise. -/
def Obligations.ErrorIsNotSticky : Prop :=
  ∀ (i j : Instr) (s t : State), exec i s = .next t →
    ∃ r : Response, exec j t = .next { t with rsp := r } ∧ exec j s = .next { s with rsp := r }

/-! Host layer -/

/-- R110: elaboration gives an instance for a supported width and InvalidWidth for any other. -/
def Obligations.OnlySupportedWidthsElaborate : Prop :=
  ∀ k : Nat,
    (k = 8 ∨ k = 16 ∨ k = 32 → ∃ w : Width, elaborate k = .ok w ∧ w.k = k) ∧
    (¬ (k = 8 ∨ k = 16 ∨ k = 32) → elaborate k = .error .invalidWidth)

/-- R60, R61: a bit string of the wrong length is LengthMismatch, one of the right length with another
character is InvalidSymbol, and any other is the vector whose bit `t` is character `t`; and each
statement that takes a string is refused with the error of its conversion. -/
def Obligations.BitStringConversion : Prop :=
  ∀ (w : Width) (s : List Char),
    (s.length ≠ w.k → (DataOperand.bits s).toVector w = .error .lengthMismatch) ∧
    (s.length = w.k → (∃ c ∈ s, c ≠ '0' ∧ c ≠ '1') →
      (DataOperand.bits s).toVector w = .error .invalidSymbol) ∧
    (s.length = w.k → (∀ c ∈ s, c = '0' ∨ c = '1') →
      ∃ v : DataWord, (DataOperand.bits s).toVector w = .ok v ∧ v.toNat < 2 ^ w.k ∧
        ∀ j : Nat, 1 ≤ j → j ≤ w.k → (bitAt v j = true ↔ s[j - 1]? = some '1')) ∧
    (s.length ≠ w.n → (CwOperand.bits s).toSource w = .error .lengthMismatch) ∧
    (s.length = w.n → (∃ c ∈ s, c ≠ '0' ∧ c ≠ '1') →
      (CwOperand.bits s).toSource w = .error .invalidSymbol) ∧
    (s.length = w.n → (∀ c ∈ s, c = '0' ∨ c = '1') →
      ∃ v : CodeWord, (CwOperand.bits s).toSource w = .ok (.value v) ∧ v.toNat < 2 ^ w.n ∧
        ∀ i : Nat, 1 ≤ i → i ≤ w.n → (bitAt v i = true ↔ s[i - 1]? = some '1')) ∧
    (∀ e : HostError, (DataOperand.bits s).toVector w = .error e →
      (Stmt.encode (.bits s)).expand w = .error e) ∧
    (∀ e : HostError, (CwOperand.bits s).toSource w = .error e →
      (Stmt.decode (.bits s)).expand w = .error e ∧
      (∀ q : Int, (Stmt.flip (.bits s) q).expand w = .error e) ∧
      (∀ qs : List Int, (Stmt.inject (.bits s) qs).expand w = .error e))

/-- R63: character `j - 1` of the string of a vector is `1` exactly when its bit number `j` is 1; turning
a vector into a string and back gives the vector, and the other way round; and a position or a syndrome
is returned as the value of its vector, which the position operand takes back. A response is read
through the host layer in this form. -/
def Obligations.BitStringRoundTrip : Prop :=
  ∀ w : Width,
    (∀ d : DataWord, (dataString w d).length = w.k ∧
      ∀ j : Nat, 1 ≤ j → j ≤ w.k →
        (dataString w d)[j - 1]? = some (if bitAt d j = true then '1' else '0')) ∧
    (∀ c : CodeWord, (codewordString w c).length = w.n ∧
      ∀ i : Nat, 1 ≤ i → i ≤ w.n →
        (codewordString w c)[i - 1]? = some (if bitAt c i = true then '1' else '0')) ∧
    (∀ p : PosWord, hostInteger p = (p.toNat : Int) ∧
      (p.toNat < 2 ^ w.m → positionOperand w (hostInteger p) = .ok p)) ∧
    (∀ (q : Int) (p : PosWord), positionOperand w q = .ok p → hostInteger p = q) ∧
    (∀ s : State, s.width = w → s.Readable → s.readResult = .ok
      ⟨s.rsp.valid, s.rsp.op, s.rsp.err, s.rsp.status, (s.rsp.syn.toNat : Int),
        (s.rsp.pos.toNat : Int), dataString w s.rsp.data, codewordString w s.rsp.cw⟩) ∧
    (∀ d : DataWord, d.toNat < 2 ^ w.k → hostToVector 32 (dataString w d) w.k = .ok d) ∧
    (∀ (s : List Char) (d : DataWord), hostToVector 32 s w.k = .ok d → dataString w d = s) ∧
    (∀ c : CodeWord, c.toNat < 2 ^ w.n → hostToVector 38 (codewordString w c) w.n = .ok c) ∧
    (∀ (s : List Char) (c : CodeWord), hostToVector 38 s w.n = .ok c → codewordString w c = s)

/-- R62: a position that does not fit is refused by the host, one that fits is driven as it is, and
every FLIP of a position outside `[1, N]` ends in PositionOutOfRange, in the host or in the block. -/
def Obligations.PositionConversion : Prop :=
  ∀ (w : Width) (q : Int),
    (q < 0 ∨ q > 2 ^ w.m - 1 → positionOperand w q = .error .positionOutOfRange) ∧
    (0 ≤ q → q ≤ 2 ^ w.m - 1 → ∃ p : PosWord, positionOperand w q = .ok p ∧ (p.toNat : Int) = q ∧
      (q < 1 ∨ q > w.n → ∀ (s : State) (c : CodeWord), s.width = w →
        exec (.flip c p) s = .next { s with rsp :=
          ⟨true, 2#2, 1#2, 0#2, 0#6, 0#6, 0#32, 0#38⟩ }))

/-- R65: a hexadecimal operand is the numeric value of its vector, or LengthMismatch when it does not
fit. -/
def Obligations.HexOperands : Prop :=
  ∀ (w : Width) (v : Nat),
    (v < 2 ^ w.k → (DataOperand.hex v).toVector w = .ok (BitVec.ofNat 32 v) ∧
      (BitVec.ofNat 32 v).toNat = v) ∧
    (2 ^ w.k ≤ v → (DataOperand.hex v).toVector w = .error .lengthMismatch) ∧
    (v < 2 ^ w.n → (CwOperand.hex v).toSource w = .ok (.value (BitVec.ofNat 38 v)) ∧
      (BitVec.ofNat 38 v).toNat = v) ∧
    (2 ^ w.n ≤ v → (CwOperand.hex v).toSource w = .error .lengthMismatch)

/-- R59, R61: a statement the host layer refuses drives no cycle and changes no register; it is noted
in the record. That the host goes on with the statements after it is the model's choice (log entry 6),
and so is what it drives when there is none (log entry 5). -/
def Obligations.RefusedStatementIssuesNothing : Prop :=
  ∀ (s : State) (st : Stmt) (rest : List Stmt) (e : HostError),
    st.expand s.width = .error e → s.pending = [] → s.program = st :: rest →
    s.presentNext = State.presentNext
      { s with program := rest, record := s.record ++ [.refused e] } ∧
    (rest = [] → s.presentNext = .next { s with
      program := [], inp := ⟨false, false, 0#2, 0#32, 0#38, 0#6⟩,
      record := s.record ++ [.refused e], driving := false })

/-- R64, R54: what each accepted single-cycle statement presents: after the host has driven it, the
ports carry its command (or `rst = 1`, or nothing), with 0 in the fields that the command ignores. The
zeros on the op and operand ports of IDLE and RESET are the model's choice (log entry 5; R56 and R128
leave them free), and so is the operand `rsp_cw` where no command has been accepted since a reset (log
entry 15). -/
def Obligations.StatementPresentsItsCommand : Prop :=
  ∀ (s : State) (rest : List Stmt), s.Fits → s.Readable → s.pending = [] →
    (∀ (o : DataOperand) (d : DataWord), s.program = .encode o :: rest →
      o.toVector s.width = .ok d →
      s.presentNext =
        .next { s with program := rest, inp := ⟨false, true, 0#2, d, 0#38, 0#6⟩, driving := true }) ∧
    (∀ (o : CwOperand) (src : CwSource) (c : CodeWord), s.program = .decode o :: rest →
      o.toSource s.width = .ok src → s.cwOfSource src = .ok c →
      s.presentNext =
        .next { s with program := rest, inp := ⟨false, true, 1#2, 0#32, c, 0#6⟩, driving := true }) ∧
    (∀ (o : CwOperand) (src : CwSource) (c : CodeWord) (q : Int) (p : PosWord),
      s.program = .flip o q :: rest → o.toSource s.width = .ok src → s.cwOfSource src = .ok c →
      positionOperand s.width q = .ok p →
      s.presentNext =
        .next { s with program := rest, inp := ⟨false, true, 2#2, 0#32, c, p⟩, driving := true }) ∧
    (∀ v : Nat, s.program = .cmd v :: rest → v < 2 ^ s.width.cmdBits →
      ∃ t : State, s.presentNext = .next t ∧ t.program = rest ∧ t.driving = true ∧ t.inp.rst = false ∧
        t.inp.cmdValid = true ∧
        (⟨t.inp.cmdOp, t.inp.cmdData, t.inp.cmdCw, t.inp.cmdPos⟩ : Fields) =
          unpack s.width (BitVec.ofNat 78 v)) ∧
    (s.program = .idle 1 :: rest →
      s.presentNext =
        .next { s with program := rest, inp := ⟨false, false, 0#2, 0#32, 0#38, 0#6⟩, driving := true }) ∧
    (s.program = .reset :: rest →
      s.presentNext =
        .next { s with program := rest, inp := ⟨true, false, 0#2, 0#32, 0#38, 0#6⟩, driving := true })

/-- R64: IDLE t drives t idle cycles in order, the first at once and the others from the host's pending
cycles, each of which it drives as it stands, and IDLE 0 drives none; a run of IDLE t has the idle ports
in each of its t cycles. The zeros on the op and operand ports are the model's choice (log entry 5), and
so are that IDLE 0 takes no cycle (log entry 16) and that loading drops what the host still had to
present (log entry 17). -/
def Obligations.IdleDrivesItsCycles : Prop :=
  (∀ (s : State) (rest : List Stmt), s.pending = [] → s.program = .idle 0 :: rest →
    s.presentNext = State.presentNext { s with program := rest }) ∧
  (∀ (s : State) (rest : List Stmt) (k : Nat), s.pending = [] → s.program = .idle (k + 1) :: rest →
    s.presentNext = .next { s with
      program := rest, pending := List.replicate k ⟨false, false, 0#2, 0#32, .value 0#38, 0#6⟩,
      inp := ⟨false, false, 0#2, 0#32, 0#38, 0#6⟩, driving := true }) ∧
  (∀ (s : State) (d : Drive) (ds : List Drive) (c : CodeWord), s.pending = d :: ds →
    s.cwOfSource d.cmdCw = .ok c → d.cmdData.toNat < 2 ^ s.width.k → c.toNat < 2 ^ s.width.n →
    d.cmdPos.toNat < 2 ^ s.width.m →
    s.presentNext = .next { s with
      pending := ds, inp := ⟨d.rst, d.cmdValid, d.cmdOp, d.cmdData, c, d.cmdPos⟩,
      driving := true }) ∧
  (∀ (s : State) (t n : Nat), s.Readable → n < t →
    ∃ s0 u : State, s.load [.idle t] = .next s0 ∧ Host.Core.run core n s0 = .next u ∧
      u.inp = ⟨false, false, 0#2, 0#32, 0#38, 0#6⟩ ∧ u.pending.length + n + 1 = t ∧
      u.driving = true)

/-- R103, R105: the checks of INJECT in their order, all before any FLIP; on a failure no FLIP is driven
and no register changes. R104: on success one FLIP for each position, in list order, the first on the
operand and the others on `rsp_cw`; R105: each of them succeeds. That the host goes on after a refused
INJECT in the same cycle (log entry 6), so that with no statement left it drives idle ports (log
entry 5), is the model's choice. -/
def Obligations.InjectChecksThenFlips : Prop :=
  ∀ (w : Width) (o : CwOperand) (qs : List Int),
    (∀ e : HostError, o.toSource w = .error e → (Stmt.inject o qs).expand w = .error e) ∧
    (∀ src : CwSource, o.toSource w = .ok src →
      (¬ qs.Nodup → (Stmt.inject o qs).expand w = .error .duplicatePosition) ∧
      (qs.Nodup → (∃ q ∈ qs, q < 1 ∨ q > w.n) →
        (Stmt.inject o qs).expand w = .error .positionOutOfRange) ∧
      (qs.Nodup → (∀ q ∈ qs, 1 ≤ q ∧ q ≤ w.n) →
        ∃ ds : List Drive, (Stmt.inject o qs).expand w = .ok ds ∧
          ds.map (fun d => (d.cmdPos.toNat : Int)) = qs ∧
          (∀ d ∈ ds, d.rst = false ∧ d.cmdValid = true ∧ d.cmdOp = 2#2) ∧
          (∀ d ∈ ds.head?, d.cmdCw = src) ∧ (∀ d ∈ ds.tail, d.cmdCw = .rspCw) ∧
          (∀ d ∈ ds, ∀ (s : State) (c : CodeWord), s.width = w →
            ∃ r : Response, exec (.flip c d.cmdPos) s = .next { s with rsp := r } ∧
              r.err = 0#2))) ∧
    (∀ (s : State) (e : HostError), s.width = w → (Stmt.inject o qs).expand w = .error e →
      s.pending = [] → s.program = [.inject o qs] →
      ∃ t : State, s.presentNext = .next t ∧ t.rsp = s.rsp ∧ t.inp.cmdValid = false ∧
        t.inp.rst = false ∧ t.pending = [] ∧ t.program = [])

/-- R104: an accepted INJECT of at least one position, run for one edge a position, leaves in `rsp_cw`
its codeword XOR the vector of its positions, and has then ended. That the host drives nothing after it
is the model's choice (log entry 5), and so are the operand `rsp_cw` where no command has been accepted
since a reset (log entry 15) and that loading drops what the host still had to present (log entry 17). -/
def Obligations.InjectRunFlipsThePositions : Prop :=
  ∀ (s : State) (o : CwOperand) (src : CwSource) (v : CodeWord) (qs : List Int), s.Readable →
    o.toSource s.width = .ok src → s.cwOfSource src = .ok v → v.toNat < 2 ^ s.width.n →
    qs ≠ [] → qs.Nodup → (∀ q ∈ qs, 1 ≤ q ∧ q ≤ s.width.n) →
    ∃ s0 t : State, s.load [.inject o qs] = .next s0 ∧
      Host.Core.run core qs.length s0 = .next t ∧
      t.rsp = ⟨true, 2#2, 0#2, 0#2, 0#6, 0#6, 0#32, v ^^^ maskOf 38 (qs.map Int.toNat)⟩ ∧
      t.runEnded = true

/-- R106: an empty INJECT issues no command, changes no register, and its host-level result is its
codeword. That the host notes the result in its record and goes on with the statements after it in the
same cycle is the model's choice (log entry 16), and so are what it drives when there is none (log
entry 5) and the operand `rsp_cw` where no command has been accepted since a reset (log entry 15). -/
def Obligations.EmptyInject : Prop :=
  ∀ (s : State) (o : CwOperand) (src : CwSource) (v : CodeWord) (rest : List Stmt),
    o.toSource s.width = .ok src → s.cwOfSource src = .ok v → s.pending = [] →
    s.program = .inject o [] :: rest →
    (Stmt.inject o []).expand s.width = .ok [] ∧
    s.presentNext = State.presentNext
      { s with program := rest, record := s.record ++ [.value v] } ∧
    (rest = [] → s.presentNext = .next { s with
      program := [], inp := ⟨false, false, 0#2, 0#32, 0#38, 0#6⟩,
      record := s.record ++ [.value v], driving := false })

/-- R134, R65: an operand `rsp_cw` of the next command is what `rsp_cw` holds after the coming edge. That
this is so too where the edge is a reset, or no command has been accepted since one, is the model's
choice (log entry 15). -/
def Obligations.LoopbackTakesTheNewResponse : Prop :=
  ∀ (s t : State) (d : Drive) (ds : List Drive), s.Inv → s.pending = d :: ds →
    d.cmdCw = .rspCw → step s = .next t →
    t.inp.cmdCw = t.rsp.cw ∧ t.inp.cmdOp = d.cmdOp ∧ t.pending = ds

/-- R139, R135: every response of an accepted command is in the host's record after its step, next
after what the record held. That the host samples every one is the model's choice (log entry 4). -/
def Obligations.HostRecordsEveryResponse : Prop :=
  ∀ (s t : State) (i : Instr), s.resetSeen = true → s.Presents i → step s = .next t →
    ∃ es : List HostEvent, t.record = s.record ++ .response t.rsp :: es

/-- R139: a run of a program ends just after the edge of the last cycle that its statements drive, be it
a command, a cycle of a trailing IDLE or a RESET, and no edge earlier. That a statement which drives no
cycle takes none is the model's choice (log entries 6 and 16), and so are what the host drives after the
run (log entry 5) and that loading drops what it still had to present (log entry 17). -/
def Obligations.RunEndsAfterItsLastCycle : Prop :=
  ∀ (s : State) (p : List Stmt), s.Readable → ∃ s0 : State, s.load p = .next s0 ∧
    (∀ n : Nat, n < (p.map (Stmt.cycles s.width)).sum →
      ∃ t : State, Host.Core.run core n s0 = .next t ∧ t.runEnded = false) ∧
    ∃ t : State, Host.Core.run core (p.map (Stmt.cycles s.width)).sum s0 = .next t ∧
      t.runEnded = true

/-- R64, R65: the text of each statement form (123 and 125 are the braces of INJECT), with a comment,
a line of a comment alone, and the default of IDLE. That such a line is skipped, blanks and the spelling
of numbers are the model's choice (log entry 9). -/
def Obligations.AssemblerReadsTheStatementForms : Prop :=
  (Asm.line ['R', 'E', 'S', 'E', 'T', ';', 'x']).toOption = some (some .reset) ∧
  (Asm.line [' ', ';', 'I']).toOption = some none ∧
  (Asm.line ['I', 'D', 'L', 'E']).toOption = some (some (.idle 1)) ∧
  (Asm.line ['I', 'D', 'L', 'E', ' ', '1', '2']).toOption = some (some (.idle 12)) ∧
  (Asm.line ['E', 'N', 'C', 'O', 'D', 'E', ' ', '"', '1', '0', '"']).toOption =
    some (some (.encode (.bits ['1', '0']))) ∧
  (Asm.line ['D', 'E', 'C', 'O', 'D', 'E', ' ', '0', 'x', '4', 'C']).toOption =
    some (some (.decode (.hex 0x4C))) ∧
  (Asm.line ['F', 'L', 'I', 'P', ' ', 'r', 's', 'p', '_', 'c', 'w', ',', ' ', '-', '5']).toOption =
    some (some (.flip .rspCw (-5))) ∧
  (Asm.line ['.', 'c', 'm', 'd', ' ', '0', 'x', '3', 'F']).toOption = some (some (.cmd 0x3F)) ∧
  (Asm.line ['I', 'N', 'J', 'E', 'C', 'T', ' ', '"', '0', '"', ',', ' ', Char.ofNat 123, '5', ',', ' ',
    '1', '0', Char.ofNat 125]).toOption = some (some (.inject (.bits ['0']) [5, 10]))
end

