-- ==== Sys2Proof/Laws/Bits.lean ====
section
/-! SUPPORT. What the bit operations of Machine/Bits.lean do, bit by bit. -/

namespace Sys2Proof.Machine

@[simp] theorem getLsbD_unitAt (n i k : Nat) :
    (unitAt n i).getLsbD k = (decide (k < n) && decide (k = i - 1)) := by
  simp only [unitAt, BitVec.getLsbD_shiftLeft, BitVec.getLsbD_one]
  by_cases h : k < n
  · by_cases h' : k = i - 1
    · subst h'; simp [h]; omega
    · simp [h, h']; omega
  · simp [h]

theorem getLsbD_putBit {n : Nat} (v : BitVec n) (i : Nat) (b : Bool) (k : Nat) :
    (putBit v i b).getLsbD k = if k = i - 1 ∧ k < n then b else v.getLsbD k := by
  by_cases h : k < n
  · by_cases h' : k = i - 1
    · subst h'
      cases b <;> simp [putBit, h]
    · cases b <;> simp only [putBit, if_true, Bool.false_eq_true, if_false, BitVec.getLsbD_or,
        BitVec.getLsbD_and, BitVec.getLsbD_not, getLsbD_unitAt] <;> simp [h, h']
  · rw [BitVec.getLsbD_of_ge _ k (by omega), BitVec.getLsbD_of_ge v k (by omega)]
    simp [h]

theorem bitAt_putBit_self {n : Nat} (v : BitVec n) {i : Nat} (b : Bool) (h1 : 1 ≤ i) (hn : i ≤ n) :
    bitAt (putBit v i b) i = b := by
  have : i - 1 < n := by omega
  rw [bitAt, getLsbD_putBit, if_pos ⟨rfl, this⟩]

theorem bitAt_putBit_ne {n : Nat} (v : BitVec n) {i k : Nat} (b : Bool) (h1 : 1 ≤ i) (h2 : 1 ≤ k)
    (hne : k ≠ i) : bitAt (putBit v i b) k = bitAt v k := by
  have : k - 1 ≠ i - 1 := by omega
  simp [bitAt, getLsbD_putBit, this]

theorem bitAt_unitAt {n i k : Nat} (h1 : 1 ≤ i) (h2 : 1 ≤ k) :
    bitAt (unitAt n i) k = (decide (k ≤ n) && decide (k = i)) := by
  simp only [bitAt, getLsbD_unitAt]
  congr 1 <;> simp only [decide_eq_decide] <;> omega

@[simp] theorem bitAt_zero (n i : Nat) : bitAt 0#n i = false := by simp [bitAt]

@[simp] theorem bitAt_xor {n : Nat} (a b : BitVec n) (i : Nat) :
    bitAt (a ^^^ b) i = xor (bitAt a i) (bitAt b i) := by simp [bitAt]

/-- Two vectors are equal when every numbered bit is. -/
theorem eq_of_bitAt_eq {n : Nat} {a b : BitVec n} (h : ∀ i, 1 ≤ i → i ≤ n → bitAt a i = bitAt b i) :
    a = b := by
  apply BitVec.eq_of_getLsbD_eq
  intro i hi
  simpa [bitAt] using h (i + 1) (by omega) (by omega)

@[simp] theorem xorOver_nil (f : Nat → Bool) : xorOver [] f = false := rfl

@[simp] theorem xorOver_cons (i : Nat) (S : List Nat) (f : Nat → Bool) :
    xorOver (i :: S) f = xor (f i) (xorOver S f) := rfl

theorem xorOver_congr {S : List Nat} {f g : Nat → Bool} (h : ∀ i ∈ S, f i = g i) :
    xorOver S f = xorOver S g := by
  induction S with
  | nil => rfl
  | cons i S ih =>
    rw [xorOver_cons, xorOver_cons, h i (by simp), ih fun j hj => h j (by simp [hj])]

/-- The parity of a sum is the sum of the parities: the root of R82 and R88. -/
theorem xorOver_xor (S : List Nat) (f g : Nat → Bool) :
    xorOver S (fun i => xor (f i) (g i)) = xor (xorOver S f) (xorOver S g) := by
  induction S with
  | nil => rfl
  | cons i S ih => simp only [xorOver_cons, ih]; cases f i <;> cases g i <;> simp

theorem xorOver_bitAt_xor {n : Nat} (S : List Nat) (a b : BitVec n) :
    xorOver S (bitAt (a ^^^ b)) = xor (xorOver S (bitAt a)) (xorOver S (bitAt b)) := by
  rw [← xorOver_xor]; exact xorOver_congr fun i _ => bitAt_xor a b i

/-- The parity over a set of the vector with one bit set: 1 exactly when the set holds the bit. -/
theorem xorOver_unitAt {n : Nat} {S : List Nat} {p : Nat} (hS : S.Nodup)
    (hr : ∀ i ∈ S, 1 ≤ i ∧ i ≤ n) (hp : 1 ≤ p) :
    xorOver S (bitAt (unitAt n p)) = decide (p ∈ S) := by
  induction S with
  | nil => rfl
  | cons i S ih =>
    have hi := hr i (by simp)
    rw [xorOver_cons, ih (List.nodup_cons.mp hS).2 fun j hj => hr j (by simp [hj]),
      bitAt_unitAt hp hi.1]
    by_cases h : i = p
    · subst h; simp [hi.2, (List.nodup_cons.mp hS).1]
    · simp [h, Ne.symm h]

theorem getLsbD_lowBits {n : Nat} (w : Nat) (v : BitVec n) (i : Nat) :
    (lowBits w v).getLsbD i = (decide (i < w) && v.getLsbD i) := by
  by_cases h : i < n
  · rw [lowBits, BitVec.getLsbD_and, BitVec.getLsbD_ofNat, Nat.testBit_two_pow_sub_one, Bool.and_comm]
    simp [h]
  · simp [BitVec.getLsbD_of_ge, Nat.le_of_not_lt h]

/-- A value that the wires of a port can carry passes unchanged. -/
theorem lowBits_of_lt {n w : Nat} {v : BitVec n} (h : v.toNat < 2 ^ w) : lowBits w v = v := by
  apply BitVec.eq_of_getLsbD_eq
  intro i _
  rw [getLsbD_lowBits]
  by_cases hi : i < w
  · simp [hi]
  · have : v.toNat < 2 ^ i := lt_of_lt_of_le h (Nat.pow_le_pow_right (by omega) (by omega))
    simp [hi, BitVec.getLsbD, Nat.testBit_lt_two_pow this]

/-- What the wires of a port carry is below `2 ^ width`. -/
theorem lowBits_lt {n : Nat} (w : Nat) (v : BitVec n) : (lowBits w v).toNat < 2 ^ w := by
  have h : (lowBits w v).toNat ≤ 2 ^ w - 1 := by
    rw [lowBits, BitVec.toNat_and]
    exact le_trans Nat.and_le_right (by simpa using Nat.mod_le _ _)
  have : 0 < 2 ^ w := Nat.two_pow_pos w
  omega

/-- A vector whose bits at and above `w` are 0 is below `2 ^ w`. -/
theorem lt_of_high_bits_false {n : Nat} {v : BitVec n} (w : Nat)
    (h : ∀ i, w ≤ i → v.getLsbD i = false) : v.toNat < 2 ^ w := by
  have : lowBits w v = v := by
    apply BitVec.eq_of_getLsbD_eq
    intro i _
    rw [getLsbD_lowBits]
    by_cases hi : i < w
    · simp [hi]
    · simp [hi, h i (by omega)]
  rw [← this]; exact lowBits_lt w v

/-- A loop of bit writes leaves a bit that none of its positions names. -/
theorem bitAt_foldl_putBit_of_ne {n : Nat} (l : List Nat) (pos : Nat → Nat) (val : Nat → Bool)
    (init : BitVec n) {i : Nat} (hi : 1 ≤ i) (hpos : ∀ j ∈ l, 1 ≤ pos j) (hne : ∀ j ∈ l, pos j ≠ i) :
    bitAt (l.foldl (fun v j => putBit v (pos j) (val j)) init) i = bitAt init i := by
  induction l generalizing init with
  | nil => rfl
  | cons j l ih =>
    rw [List.foldl_cons, ih _ (fun k hk => hpos k (by simp [hk])) fun k hk => hne k (by simp [hk])]
    exact bitAt_putBit_ne _ _ (hpos j (by simp)) hi (Ne.symm (hne j (by simp)))

/-- A loop of bit writes to distinct positions leaves at each position the value written there. -/
theorem bitAt_foldl_putBit_of_mem {n : Nat} (l : List Nat) (pos : Nat → Nat) (val : Nat → Bool)
    (init : BitVec n) (hnd : (l.map pos).Nodup) (hr : ∀ j ∈ l, 1 ≤ pos j ∧ pos j ≤ n) {j : Nat}
    (hj : j ∈ l) :
    bitAt (l.foldl (fun v j => putBit v (pos j) (val j)) init) (pos j) = val j := by
  induction l generalizing init with
  | nil => simp at hj
  | cons a l ih =>
    rw [List.foldl_cons]
    rw [List.map_cons, List.nodup_cons] at hnd
    rcases List.mem_cons.mp hj with rfl | hj'
    · rw [bitAt_foldl_putBit_of_ne l pos val _ (hr j (by simp)).1
        (fun k hk => (hr k (by simp [hk])).1)
        fun k hk heq => hnd.1 (heq ▸ List.mem_map_of_mem hk)]
      exact bitAt_putBit_self _ _ (hr j (by simp)).1 (hr j (by simp)).2
    · exact ih _ hnd.2 (fun k hk => hr k (by simp [hk])) hj'

/-- A vector below `2 ^ k` has no bit at or above `k`. -/
theorem getLsbD_of_lt {n k : Nat} {v : BitVec n} (h : v.toNat < 2 ^ k) {i : Nat} (hi : k ≤ i) :
    v.getLsbD i = false := by
  have : v.toNat < 2 ^ i := lt_of_lt_of_le h (Nat.pow_le_pow_right (by omega) hi)
  simp [BitVec.getLsbD, Nat.testBit_lt_two_pow this]

/-- The parity over a set does not depend on the order it is listed in (R85). -/
theorem xorOver_perm {A B : List Nat} (h : A.Perm B) (f : Nat → Bool) : xorOver A f = xorOver B f := by
  induction h with
  | nil => rfl
  | cons a _ ih => simp [ih]
  | swap a b l => simp only [xorOver_cons]; cases f a <;> cases f b <;> simp
  | trans _ _ h1 h2 => exact h1.trans h2

/-- Members whose bit is 0 do not count towards the parity. -/
theorem xorOver_filter {S : List Nat} {p f : Nat → Bool} (h : ∀ i ∈ S, p i = false → f i = false) :
    xorOver S f = xorOver (S.filter p) f := by
  induction S with
  | nil => rfl
  | cons a S ih =>
    rw [xorOver_cons, ih fun i hi => h i (by simp [hi])]
    cases ha : p a
    · simp [ha, h a (by simp) ha]
    · simp [ha]

/-- A run of single-bit inversions at distinct positions inverts exactly those bits (R101). -/
theorem bitAt_foldl_unitAt {n : Nat} {l : List Nat} (v : BitVec n) (hl : l.Nodup)
    (hr : ∀ i ∈ l, 1 ≤ i ∧ i ≤ n) {i : Nat} (h1 : 1 ≤ i) :
    bitAt (l.foldl (fun v i => v ^^^ unitAt n i) v) i = xor (bitAt v i) (decide (i ∈ l)) := by
  induction l generalizing v with
  | nil => simp
  | cons a l ih =>
    rw [List.foldl_cons, ih _ (List.nodup_cons.mp hl).2 fun j hj => hr j (by simp [hj]), bitAt_xor,
      bitAt_unitAt (hr a (by simp)).1 h1]
    by_cases h : i = a
    · subst h
      simp [(hr i (by simp)).2, (List.nodup_cons.mp hl).1]
    · simp [h]

/-- A mask has exactly the bits of its list (R70, R72). -/
theorem bitAt_maskOf {n : Nat} {l : List Nat} (hl : l.Nodup) (hr : ∀ i ∈ l, 1 ≤ i ∧ i ≤ n) {i : Nat}
    (h1 : 1 ≤ i) : bitAt (maskOf n l) i = decide (i ∈ l) := by
  rw [maskOf, bitAt_foldl_unitAt _ hl hr h1]; simp

end Sys2Proof.Machine
end

