-- ==== Sys2Proof/Laws/Layout.lean ====
section
/-! SUPPORT. The layout of the three instances: its constants as numerals, and the facts about the
position sets that every proof over the codec uses. -/

namespace Sys2Proof

@[simp] theorem Width.k_k8 : Width.k8.k = 8 := rfl
@[simp] theorem Width.k_k16 : Width.k16.k = 16 := rfl
@[simp] theorem Width.k_k32 : Width.k32.k = 32 := rfl
@[simp] theorem Width.m_k8 : Width.k8.m = 4 := by decide
@[simp] theorem Width.m_k16 : Width.k16.m = 5 := by decide
@[simp] theorem Width.m_k32 : Width.k32.m = 6 := by decide
@[simp] theorem Width.n_k8 : Width.k8.n = 12 := by decide
@[simp] theorem Width.n_k16 : Width.k16.n = 21 := by decide
@[simp] theorem Width.n_k32 : Width.k32.n = 38 := by decide
@[simp] theorem Width.cmdBits_k8 : Width.k8.cmdBits = 26 := by decide
@[simp] theorem Width.cmdBits_k16 : Width.k16.cmdBits = 44 := by decide
@[simp] theorem Width.cmdBits_k32 : Width.k32.cmdBits = 78 := by decide

theorem Width.k_le (w : Width) : w.k ≤ 32 := by cases w <;> simp
theorem Width.m_le (w : Width) : w.m ≤ 6 := by cases w <;> simp
theorem Width.n_le (w : Width) : w.n ≤ 38 := by cases w <;> simp

/-- Every position fits in `M` bits (R68). -/
theorem Width.n_lt (w : Width) : w.n < 2 ^ w.m := by cases w <;> simp

theorem Width.mem_positions {w : Width} {i : Nat} : i ∈ w.positions ↔ 1 ≤ i ∧ i ≤ w.n := by
  simp only [Width.positions, List.mem_range'_1]; omega

theorem Width.mem_cov {w : Width} {p i : Nat} : i ∈ w.cov p ↔ (1 ≤ i ∧ i ≤ w.n) ∧ i &&& p = p := by
  simp [Width.cov, Width.mem_positions]

theorem Width.nodup_cov (w : Width) (p : Nat) : (w.cov p).Nodup := by
  exact List.Nodup.filter _ (by simpa [Width.positions] using List.nodup_range')

theorem Width.nodup_paritySet (w : Width) : w.paritySet.Nodup := by cases w <;> decide

theorem Width.mem_paritySet {w : Width} {p : Nat} : p ∈ w.paritySet ↔ ∃ j < w.m, 2 ^ j = p := by
  simp [Width.paritySet]

/-- Parity positions are codeword positions (R69). -/
theorem Width.paritySet_range {w : Width} {p : Nat} (h : p ∈ w.paritySet) : 1 ≤ p ∧ p ≤ w.n := by
  revert h; cases w <;> revert p <;> decide

/-- A parity position is in its own coverage set and in no other (R73). -/
theorem Width.mem_cov_parity {w : Width} {p q : Nat} (hp : p ∈ w.paritySet) (hq : q ∈ w.paritySet) :
    p ∈ w.cov q ↔ p = q := by
  revert hq; revert q; revert hp; revert p; cases w <;> decide

/-- A codeword position is a power of two exactly when it is a parity position (R69). -/
theorem Width.isPow2_iff {w : Width} {i : Nat} (h : i ∈ w.positions) :
    Machine.isPow2 i = true ↔ i ∈ w.paritySet := by
  revert h; revert i; cases w <;> decide

/-- The data bits `1 .. K`. -/
def Width.dataBits (w : Width) : List Nat := List.range' 1 w.k

theorem Width.mem_dataBits {w : Width} {j : Nat} : j ∈ w.dataBits ↔ 1 ≤ j ∧ j ≤ w.k := by
  simp only [Width.dataBits, List.mem_range'_1]; omega

/-- Data positions are codeword positions that are no parity positions, and DataIndex inverts DataPos
(R70, R71). -/
theorem Width.dataPos_spec {w : Width} {j : Nat} (h : j ∈ w.dataBits) :
    (1 ≤ w.dataPos j ∧ w.dataPos j ≤ w.n) ∧ w.dataPos j ∉ w.paritySet ∧
      Width.dataIndex (w.dataPos j) = j := by
  revert h; revert j; cases w <;> decide

/-- DataPos takes every data position, at its DataIndex (R71). -/
theorem Width.dataIndex_spec {w : Width} {i : Nat} (h : i ∈ w.positions) (hp : i ∉ w.paritySet) :
    Width.dataIndex i ∈ w.dataBits ∧ w.dataPos (Width.dataIndex i) = i := by
  revert hp; revert h; revert i; cases w <;> decide

/-- The data positions are pairwise distinct (R70). -/
theorem Width.nodup_dataPos (w : Width) : (w.dataBits.map w.dataPos).Nodup := by cases w <;> decide

end Sys2Proof
end

