-- ==== Sys2Proof/Laws/Codec.lean ====
section
/-! SUPPORT. What the codec functions do, bit by bit: the lemmas that later proofs cite instead of
unfolding a loop. -/

namespace Sys2Proof.Machine

/-- `Place` at a data position (R77). -/
theorem Codec.bitAt_place_dataPos {w : Width} (d : DataWord) {j : Nat} (h : j ∈ w.dataBits) :
    bitAt (Codec.place w d) (w.dataPos j) = bitAt d j :=
  bitAt_foldl_putBit_of_mem w.dataBits w.dataPos (bitAt d) 0#38 w.nodup_dataPos
    (fun _ hj => ⟨(Width.dataPos_spec hj).1.1, le_trans (Width.dataPos_spec hj).1.2 w.n_le⟩) h

/-- `Place` away from the data positions (R77). -/
theorem Codec.bitAt_place_of_ne {w : Width} (d : DataWord) {i : Nat} (h1 : 1 ≤ i)
    (h : ∀ j ∈ w.dataBits, w.dataPos j ≠ i) : bitAt (Codec.place w d) i = false := by
  have := bitAt_foldl_putBit_of_ne w.dataBits w.dataPos (bitAt d) 0#38 h1
    (fun j hj => (Width.dataPos_spec hj).1.1) h
  rw [Codec.place, ← Width.dataBits, this, bitAt_zero]

/-- `Place` leaves 0 at every parity position (R77). -/
theorem Codec.bitAt_place_parity {w : Width} (d : DataWord) {p : Nat} (h : p ∈ w.paritySet) :
    bitAt (Codec.place w d) p = false :=
  Codec.bitAt_place_of_ne d (Width.paritySet_range h).1 fun _ hj heq =>
    (Width.dataPos_spec hj).2.1 (heq ▸ h)

/-- Writing one parity position leaves the sum over another one's coverage set (R78, R73). -/
theorem xorOver_cov_putBit {w : Width} (c : CodeWord) (b : Bool) {p q : Nat} (hp : p ∈ w.paritySet)
    (hq : q ∈ w.paritySet) (hne : p ≠ q) :
    xorOver (w.cov q) (bitAt (putBit c p b)) = xorOver (w.cov q) (bitAt c) := by
  apply xorOver_congr
  intro i hi
  apply bitAt_putBit_ne _ _ (Width.paritySet_range hp).1 (Width.mem_cov.mp hi).1.1
  rintro rfl
  exact hne ((Width.mem_cov_parity hp hq).mp hi)

/-- The parity loop over any distinct parity positions writes the sums of the vector it starts from:
no sum sees another parity position (R78). -/
theorem Codec.parityLoop_eq {w : Width} (l : List Nat) (hl : ∀ p ∈ l, p ∈ w.paritySet)
    (hnd : l.Nodup) (c0 c : CodeWord)
    (hc : ∀ p ∈ l, xorOver (w.cov p) (bitAt c) = xorOver (w.cov p) (bitAt c0)) :
    l.foldl (fun c p => putBit c p (xorOver (w.cov p) (bitAt c))) c =
      l.foldl (fun c p => putBit c p (xorOver (w.cov p) (bitAt c0))) c := by
  induction l generalizing c with
  | nil => rfl
  | cons p l ih =>
    rw [List.foldl_cons, List.foldl_cons, hc p (by simp)]
    apply ih (fun q hq => hl q (by simp [hq])) (List.nodup_cons.mp hnd).2
    intro q hq
    rw [xorOver_cov_putBit c _ (hl p (by simp)) (hl q (by simp [hq]))
      fun heq => (List.nodup_cons.mp hnd).1 (heq ▸ hq)]
    exact hc q (by simp [hq])

theorem Codec.encode_eq (w : Width) (d : DataWord) : Codec.encode w d =
    w.paritySet.foldl
      (fun c p => putBit c p (xorOver (w.cov p) (bitAt (Codec.place w d)))) (Codec.place w d) :=
  Codec.parityLoop_eq _ (fun _ h => h) w.nodup_paritySet _ _ fun _ _ => rfl

/-- `Encode` at a parity position (R78). -/
theorem Codec.bitAt_encode_parity {w : Width} (d : DataWord) {p : Nat} (h : p ∈ w.paritySet) :
    bitAt (Codec.encode w d) p = xorOver (w.cov p) (bitAt (Codec.place w d)) := by
  rw [Codec.encode_eq]
  exact bitAt_foldl_putBit_of_mem w.paritySet (fun p => p)
    (fun p => xorOver (w.cov p) (bitAt (Codec.place w d))) _
    (by simpa using w.nodup_paritySet)
    (fun q hq => ⟨(Width.paritySet_range hq).1, le_trans (Width.paritySet_range hq).2 w.n_le⟩) h

/-- `Encode` away from the parity positions: what `Place` put there (R78). -/
theorem Codec.bitAt_encode_of_notMem {w : Width} (d : DataWord) {i : Nat} (h1 : 1 ≤ i)
    (h : i ∉ w.paritySet) : bitAt (Codec.encode w d) i = bitAt (Codec.place w d) i := by
  rw [Codec.encode_eq]
  exact bitAt_foldl_putBit_of_ne w.paritySet (fun p => p)
    (fun p => xorOver (w.cov p) (bitAt (Codec.place w d))) _ h1
    (fun q hq => (Width.paritySet_range hq).1) fun q hq heq => h (heq ▸ hq)

/-- `Encode` at a data position holds the data bit (R79). -/
theorem Codec.bitAt_encode_dataPos {w : Width} (d : DataWord) {j : Nat} (h : j ∈ w.dataBits) :
    bitAt (Codec.encode w d) (w.dataPos j) = bitAt d j := by
  rw [Codec.bitAt_encode_of_notMem d (Width.dataPos_spec h).1.1 (Width.dataPos_spec h).2.1,
    Codec.bitAt_place_dataPos d h]

/-- A codeword has no bit above `N` (R19). -/
theorem Codec.bitAt_encode_of_gt {w : Width} (d : DataWord) {i : Nat} (h : w.n < i) :
    bitAt (Codec.encode w d) i = false := by
  rw [Codec.bitAt_encode_of_notMem d (by omega)
    fun hp => absurd (Width.paritySet_range hp).2 (by omega)]
  exact Codec.bitAt_place_of_ne d (by omega) fun j hj heq =>
    absurd (Width.dataPos_spec hj).1.2 (by omega)

/-- Bit `j` of the syndrome (R84, R86). -/
theorem Codec.getLsbD_syndrome (w : Width) (c : CodeWord) (j : Nat) :
    (Codec.syndrome w c).getLsbD j = (decide (j < w.m) && Codec.syndromeBit w c j) := by
  by_cases h : j < w.m
  · have := bitAt_foldl_putBit_of_mem (List.range w.m) (fun j => j + 1)
      (Codec.syndromeBit w c) 0#6 (List.Nodup.map (fun a b => by simp) List.nodup_range)
      (fun _ hi => ⟨by omega, by have := List.mem_range.mp hi; have := w.m_le; omega⟩)
      (List.mem_range.mpr h)
    simpa [bitAt, Codec.syndrome, h] using this
  · have := bitAt_foldl_putBit_of_ne (List.range w.m) (fun j => j + 1)
      (Codec.syndromeBit w c) 0#6 (i := j + 1) (by omega) (fun i _ => by omega)
      (fun i hi => by have := List.mem_range.mp hi; omega)
    simpa [bitAt, Codec.syndrome, h] using this

/-- A syndrome is below `2 ^ M` (R89). -/
theorem Codec.syndrome_lt (w : Width) (c : CodeWord) : (Codec.syndrome w c).toNat < 2 ^ w.m :=
  lt_of_high_bits_false _ fun _ hi => by
    rw [Codec.getLsbD_syndrome]; simp [Nat.not_lt.mpr hi]

/-- Bit `j` of the extracted data (R93). -/
theorem Codec.bitAt_extract {w : Width} (c : CodeWord) {j : Nat} (h : j ∈ w.dataBits) :
    bitAt (Codec.extract w c) j = bitAt c (w.dataPos j) :=
  bitAt_foldl_putBit_of_mem w.dataBits (fun j => j) (fun j => bitAt c (w.dataPos j)) 0#32
    (by simpa [Width.dataBits] using List.nodup_range')
    (fun _ hj => ⟨(Width.mem_dataBits.mp hj).1, le_trans (Width.mem_dataBits.mp hj).2 w.k_le⟩) h

theorem Codec.bitAt_extract_of_gt {w : Width} (c : CodeWord) {j : Nat} (h : w.k < j) :
    bitAt (Codec.extract w c) j = false := by
  have := bitAt_foldl_putBit_of_ne w.dataBits (fun j => j) (fun j => bitAt c (w.dataPos j)) 0#32
    (i := j) (by omega) (fun i hi => (Width.mem_dataBits.mp hi).1)
    (fun i hi heq => by have := (Width.mem_dataBits.mp hi).2; omega)
  rw [Codec.extract, ← Width.dataBits, this, bitAt_zero]

/-- Extracted data fits the data width (R27). -/
theorem Codec.extract_lt (w : Width) (c : CodeWord) : (Codec.extract w c).toNat < 2 ^ w.k :=
  lt_of_high_bits_false _ fun i hi => by
    simpa [bitAt] using Codec.bitAt_extract_of_gt (w := w) c (j := i + 1) (by omega)

/-- A codeword fits the codeword width (R28). -/
theorem Codec.encode_lt (w : Width) (d : DataWord) : (Codec.encode w d).toNat < 2 ^ w.n :=
  lt_of_high_bits_false _ fun i hi => by
    simpa [bitAt] using Codec.bitAt_encode_of_gt (w := w) d (i := i + 1) (by omega)

/-- The sum over a coverage set of a flip vector: whether the set holds the position (R88). -/
theorem Codec.syndromeBit_unitAt {w : Width} {p : Nat} (hp : 1 ≤ p) (j : Nat) :
    Codec.syndromeBit w (unitAt 38 p) j = decide (p ∈ w.cov (2 ^ j)) :=
  xorOver_unitAt (w.nodup_cov _)
    (fun _ hi => ⟨(Width.mem_cov.mp hi).1.1, le_trans (Width.mem_cov.mp hi).1.2 w.n_le⟩) hp

/-- Inverting a position in range keeps a vector within its width (R98). -/
theorem xor_unitAt_lt {w : Width} {c : CodeWord} {q : Nat} (hc : c.toNat < 2 ^ w.n)
    (h1 : 1 ≤ q) (hq : q ≤ w.n) : (c ^^^ unitAt 38 q).toNat < 2 ^ w.n := by
  apply lt_of_high_bits_false
  intro i hi
  rw [BitVec.getLsbD_xor, getLsbD_unitAt, ← lowBits_of_lt hc, getLsbD_lowBits]
  have : i ≠ q - 1 := by omega
  simp [Nat.not_lt.mpr hi, this]

end Sys2Proof.Machine
end

