-- ==== Sys2Proof/Laws/Decode.lean ====
section
/-! SUPPORT. The packed word bit by bit, and that the decoder gives only commands that fit. -/

namespace Sys2Proof.Machine

/-- Bit `i` of the packed word (R52): the fields stand one above the other. -/
theorem getLsbD_pack (w : Width) (f : Fields) {i : Nat} (hi : i < 78) :
    (pack w f).getLsbD i =
      (f.op.getLsbD i || (decide (2 ≤ i) && f.data.getLsbD (i - 2)) ||
        (decide (w.k + 2 ≤ i) && f.cw.getLsbD (i - (w.k + 2))) ||
        (decide (w.k + w.n + 2 ≤ i) && f.pos.getLsbD (i - (w.k + w.n + 2)))) := by
  have h1 : i - 2 < 78 := by omega
  have h2 : i - (w.k + 2) < 78 := by omega
  have h3 : i - (w.k + w.n + 2) < 78 := by omega
  simp only [pack, BitVec.getLsbD_or, BitVec.getLsbD_setWidth, BitVec.getLsbD_shiftLeft, hi, h1, h2,
    h3, decide_true, Bool.true_and, Nat.not_lt, ← decide_not]

/-- The low two bits of a packed word are its `op` field, whatever stands above (R52). -/
theorem extractLsb'_pack_op (w : Width) (f : Fields) : (pack w f).extractLsb' 0 2 = f.op := by
  apply BitVec.eq_of_getLsbD_eq
  intro i hi
  rw [BitVec.getLsbD_extractLsb', getLsbD_pack w f (by omega)]
  have h1 : ¬ 2 ≤ i := by omega
  have h2 : ¬ w.k + 2 ≤ i := by omega
  have h3 : ¬ w.k + w.n + 2 ≤ i := by omega
  simp [hi, h1, h2, h3]

/-- A field cut from a word at the width of its port passes the port's wires unchanged (R19, R52). -/
theorem lowBits_field {n k : Nat} (start : Nat) (c : CmdWord) :
    lowBits k ((c.extractLsb' start k).setWidth n) = (c.extractLsb' start k).setWidth n := by
  apply lowBits_of_lt
  rw [BitVec.toNat_setWidth]
  exact lt_of_le_of_lt (Nat.mod_le _ _) (c.extractLsb' start k).isLt

/-- The decoder gives only commands that fit the instance. -/
theorem wellFormed_decodeFields (w : Width) (f : Fields) :
    WellFormed w (decodeFields w f) = true := by
  unfold decodeFields
  split_ifs <;>
    simp [WellFormed, Width.dataWires, Width.cwWires, Width.posWires, lowBits_lt]

end Sys2Proof.Machine
end

