-- ==== Sys2Proof/Laws/State.lean ====
section
/-! SUPPORT. What each update of the state leaves in each field, so that no proof unfolds a record
update. -/

namespace Sys2Proof.Machine

variable (s : State) (r : Response) (op code : Code) (e : HostEvent)

@[simp] theorem State.respond_width : (s.respond r).width = s.width := rfl
@[simp] theorem State.respond_inp : (s.respond r).inp = s.inp := rfl
@[simp] theorem State.respond_rsp : (s.respond r).rsp = r := rfl
@[simp] theorem State.respond_resetSeen : (s.respond r).resetSeen = s.resetSeen := rfl
@[simp] theorem State.respond_pending : (s.respond r).pending = s.pending := rfl
@[simp] theorem State.respond_program : (s.respond r).program = s.program := rfl
@[simp] theorem State.respond_record : (s.respond r).record = s.record := rfl
@[simp] theorem State.respond_driving : (s.respond r).driving = s.driving := rfl

@[simp] theorem State.applyReset_width : s.applyReset.width = s.width := rfl
@[simp] theorem State.applyReset_inp : s.applyReset.inp = s.inp := rfl
@[simp] theorem State.applyReset_rsp : s.applyReset.rsp = Response.atReset := rfl
@[simp] theorem State.applyReset_resetSeen : s.applyReset.resetSeen = true := rfl
@[simp] theorem State.applyReset_pending : s.applyReset.pending = s.pending := rfl
@[simp] theorem State.applyReset_program : s.applyReset.program = s.program := rfl
@[simp] theorem State.applyReset_record : s.applyReset.record = s.record := rfl
@[simp] theorem State.applyReset_driving : s.applyReset.driving = s.driving := rfl

@[simp] theorem State.applyIdle_width : s.applyIdle.width = s.width := rfl
@[simp] theorem State.applyIdle_inp : s.applyIdle.inp = s.inp := rfl
@[simp] theorem State.applyIdle_rsp : s.applyIdle.rsp = { s.rsp with valid := false } := rfl
@[simp] theorem State.applyIdle_resetSeen : s.applyIdle.resetSeen = s.resetSeen := rfl
@[simp] theorem State.applyIdle_pending : s.applyIdle.pending = s.pending := rfl
@[simp] theorem State.applyIdle_program : s.applyIdle.program = s.program := rfl
@[simp] theorem State.applyIdle_record : s.applyIdle.record = s.record := rfl
@[simp] theorem State.applyIdle_driving : s.applyIdle.driving = s.driving := rfl

@[simp] theorem State.note_width : (s.note e).width = s.width := rfl
@[simp] theorem State.note_inp : (s.note e).inp = s.inp := rfl
@[simp] theorem State.note_rsp : (s.note e).rsp = s.rsp := rfl
@[simp] theorem State.note_resetSeen : (s.note e).resetSeen = s.resetSeen := rfl
@[simp] theorem State.note_pending : (s.note e).pending = s.pending := rfl
@[simp] theorem State.note_program : (s.note e).program = s.program := rfl
@[simp] theorem State.note_record : (s.note e).record = s.record ++ [e] := rfl
@[simp] theorem State.note_driving : (s.note e).driving = s.driving := rfl

/-- Sampling changes at most the record, and appends the response or nothing. -/
theorem State.sample_spec : s.sample.width = s.width ∧ s.sample.inp = s.inp ∧ s.sample.rsp = s.rsp ∧
    s.sample.resetSeen = s.resetSeen ∧ s.sample.pending = s.pending ∧ s.sample.program = s.program ∧
    s.sample.driving = s.driving ∧
    s.sample.record = s.record ++ (if s.resetSeen && s.rsp.valid then [.response s.rsp] else []) := by
  unfold State.sample; split <;> simp_all

@[simp] theorem State.sample_width : s.sample.width = s.width := s.sample_spec.1
@[simp] theorem State.sample_inp : s.sample.inp = s.inp := s.sample_spec.2.1
@[simp] theorem State.sample_rsp : s.sample.rsp = s.rsp := s.sample_spec.2.2.1
@[simp] theorem State.sample_resetSeen : s.sample.resetSeen = s.resetSeen := s.sample_spec.2.2.2.1
@[simp] theorem State.sample_pending : s.sample.pending = s.pending := s.sample_spec.2.2.2.2.1
@[simp] theorem State.sample_program : s.sample.program = s.program := s.sample_spec.2.2.2.2.2.1
@[simp] theorem State.sample_driving : s.sample.driving = s.driving := s.sample_spec.2.2.2.2.2.2.1

/-- The error pattern is a response (R114). -/
theorem State.raiseError_eq :
    s.raiseError op code = s.respond ⟨true, op, code, 0#2, 0#6, 0#6, 0#32, 0#38⟩ := rfl

theorem State.readResponse_unreset (h : s.resetSeen = false) :
    s.readResponse = .error .readBeforeReset := by simp [State.readResponse, h]

theorem State.readResponse_ok (h : s.resetSeen = true) (hr : s.holdsReservedCode = false) :
    s.readResponse = .ok s.rsp := by simp [State.readResponse, h, hr]

/-- Whatever the read answers, it answers the same in two states with equal registers. -/
theorem State.readResponse_congr {s t : State} (h1 : s.rsp = t.rsp) (h2 : s.resetSeen = t.resetSeen) :
    s.readResponse = t.readResponse := by
  simp [State.readResponse, State.holdsReservedCode, h1, h2]

theorem State.cwOfSource_congr {s t : State} (h1 : s.rsp = t.rsp) (h2 : s.resetSeen = t.resetSeen)
    (c : CwSource) : s.cwOfSource c = t.cwOfSource c := by
  cases c <;> simp [State.cwOfSource, State.readResponse_congr h1 h2]

/-- Driving the ports, where the operand can be read: only the ports change, and the mark that a cycle of
the program is driven. -/
theorem State.drive_ok {s : State} {d : Drive} {c : CodeWord} (h : s.cwOfSource d.cmdCw = .ok c) :
    s.drive d = .next { s with inp := ⟨d.rst, d.cmdValid, d.cmdOp, s.width.dataWires d.cmdData,
      s.width.cwWires c, s.width.posWires d.cmdPos⟩, driving := true } := by
  simp [State.drive, h]

/-- What a drive that answers a next state did. -/
theorem State.drive_next {s t : State} {d : Drive} (h : s.drive d = .next t) :
    ∃ c, s.cwOfSource d.cmdCw = .ok c ∧
      t = { s with inp := ⟨d.rst, d.cmdValid, d.cmdOp, s.width.dataWires d.cmdData,
        s.width.cwWires c, s.width.posWires d.cmdPos⟩, driving := true } := by
  unfold State.drive at h
  split at h
  · exact ⟨_, ‹_›, by simpa using h.symm⟩
  · simp at h

/-- With registers that can be read, every operand of the host can be. -/
theorem State.cwOfSource_ok {s : State} (h : s.resetSeen = true) (hr : s.holdsReservedCode = false)
    (c : CwSource) : ∃ v, s.cwOfSource c = .ok v := by
  cases c with
  | value v => exact ⟨v, rfl⟩
  | rspCw => exact ⟨s.rsp.cw, by simp [State.cwOfSource, State.readResponse_ok s h hr]⟩

end Sys2Proof.Machine
end

