-- ==== Sys2Proof/Laws/Exec.lean ====
section
/-! SUPPORT. What an accepted command does: it writes one response, a function of the width and the
command alone, and nothing else. -/

namespace Sys2Proof.Machine

/-- The response of a command in an instance. -/
def Instr.response (w : Width) : Instr → Response
  | .encode d => ⟨true, 0#2, 0#2, 0#2, 0#6, 0#6, 0#32, Codec.encode w (w.dataWires d)⟩
  | .decode c => Codec.decodeResponse w (w.cwWires c)
  | .flip c p =>
    if positionInRange w (w.posWires p).toNat then
      ⟨true, 2#2, 0#2, 0#2, 0#6, 0#6, 0#32, Codec.flip (w.cwWires c) (w.posWires p).toNat⟩
    else ⟨true, 2#2, 1#2, 0#2, 0#6, 0#6, 0#32, 0#38⟩
  | .illegalOp => ⟨true, 3#2, 2#2, 0#2, 0#6, 0#6, 0#32, 0#38⟩

/-- Every command writes its response and completes (R125, R133). -/
theorem exec_eq_respond (i : Instr) (s : State) :
    exec i s = .next (s.respond (Instr.response s.width i)) := by
  cases i with
  | encode d => rfl
  | decode c => rfl
  | flip c p =>
    simp only [exec, execFlip, Instr.response]
    split <;> rfl
  | illegalOp => rfl

theorem classify_cases (w : Width) (e : PosWord) :
    (e.toNat = 0 ∧ classify w e = .noError) ∨
    ((1 ≤ e.toNat ∧ e.toNat ≤ w.n) ∧ classify w e = .corrected) ∨
    (w.n < e.toNat ∧ classify w e = .uncorrectable) := by
  unfold classify
  split
  · simp_all
  · split <;> simp_all; omega

/-- A corrected codeword keeps the width of the received one (R91). -/
theorem Codec.correct_lt {w : Width} {c : CodeWord} (e : PosWord) (hc : c.toNat < 2 ^ w.n) :
    (Codec.correct w c e).toNat < 2 ^ w.n := by
  rcases classify_cases w e with ⟨_, h⟩ | ⟨⟨h1, h2⟩, h⟩ | ⟨_, h⟩ <;> simp only [Codec.correct, h]
  · exact hc
  · exact xor_unitAt_lt hc h1 h2
  · exact hc

/-- Every response is marked valid and carries the operation of its command (R21, R22). -/
theorem Instr.response_valid (w : Width) (i : Instr) :
    (Instr.response w i).valid = true ∧ (Instr.response w i).op = i.op := by
  cases i <;> simp only [Instr.response, Instr.op, Codec.decodeResponse] <;> first | simp | skip
  split <;> simp

/-- Every response obeys R32. -/
theorem Instr.response_lawful (w : Width) (i : Instr) : (Instr.response w i).Lawful w := by
  cases i with
  | encode d => simp [Instr.response, Response.Lawful]
  | decode c =>
    rcases classify_cases w (Codec.syndrome w (w.cwWires c)) with ⟨_, h⟩ | ⟨⟨h1, h2⟩, h⟩ | ⟨h1, h⟩ <;>
      simp_all [Instr.response, Response.Lawful, Codec.decodeResponse, Codec.reportedPosition,
        statusCode, errNone]
  | flip c p =>
    simp only [Instr.response]
    split <;> simp [Response.Lawful]
  | illegalOp => simp [Instr.response, Response.Lawful]

/-- Every response fits the instance (R20). -/
theorem Instr.response_fits (w : Width) (i : Instr) : (Instr.response w i).Fits w := by
  have hm : 0 < 2 ^ w.m := Nat.two_pow_pos _
  have hk : 0 < 2 ^ w.k := Nat.two_pow_pos _
  have hn : 0 < 2 ^ w.n := Nat.two_pow_pos _
  cases i with
  | encode d => exact ⟨hm, hm, hk, Codec.encode_lt w _⟩
  | decode c =>
    refine ⟨Codec.syndrome_lt w _, ?_, Codec.extract_lt w _, Codec.correct_lt _ (lowBits_lt w.n c)⟩
    have := Codec.syndrome_lt w (w.cwWires c)
    rcases classify_cases w (Codec.syndrome w (w.cwWires c)) with ⟨_, h⟩ | ⟨_, h⟩ | ⟨_, h⟩ <;>
      simp_all [Instr.response, Codec.decodeResponse, Codec.reportedPosition]
  | flip c p =>
    simp only [Instr.response]
    split
    · rename_i h
      simp only [positionInRange, Bool.and_eq_true, decide_eq_true_eq] at h
      exact ⟨hm, hm, hk, xor_unitAt_lt (lowBits_lt w.n c) h.1 h.2⟩
    · exact ⟨hm, hm, hk, hn⟩
  | illegalOp => exact ⟨hm, hm, hk, hn⟩

theorem Response.atReset_lawful (w : Width) : Response.atReset.Lawful w := by
  simp [Response.atReset, Response.Lawful]

theorem Response.atReset_fits (w : Width) : Response.atReset.Fits w := by
  cases w <;> decide

end Sys2Proof.Machine
end

