-- ==== Sys2Proof/Laws/Step.lean ====
section
/-! SUPPORT. What an edge, the host's cycle after it, and a step can do, said once. -/

namespace Sys2Proof.Machine

/-- The three things an edge can do (R125): it always answers a next state. -/
theorem State.edge_cases (s : State) :
    (s.inp.rst = true ∧ s.edge = .next s.applyReset) ∨
    (s.inp.rst = false ∧ s.inp.cmdValid = true ∧
      s.edge = .next (s.respond (Instr.response s.width (s.inp.command s.width)))) ∨
    (s.inp.rst = false ∧ s.inp.cmdValid = false ∧ s.edge = .next s.applyIdle) := by
  unfold State.edge
  cases s.inp.rst <;> cases s.inp.cmdValid <;> simp [exec_eq_respond]

/-- The host's drive keeps the block and its own record; the ports fit their widths. -/
theorem State.drive_frame {s t : State} {d : Drive} (h : s.drive d = .next t) :
    t.width = s.width ∧ t.rsp = s.rsp ∧ t.resetSeen = s.resetSeen ∧ t.inp.Fits t.width ∧
      t.pending = s.pending ∧ t.program = s.program ∧ t.record = s.record ∧ t.driving = true := by
  obtain ⟨c, -, rfl⟩ := State.drive_next h
  exact ⟨rfl, rfl, rfl, ⟨lowBits_lt _ _, lowBits_lt _ _, lowBits_lt _ _⟩, rfl, rfl, rfl, rfl⟩

theorem Inputs.idle_fits (w : Width) : Inputs.idle.Fits w := by cases w <;> decide

/-- Noting a host-level result keeps everything but the record. -/
theorem State.noteResult_frame {s t : State} {st : Stmt} (h : s.noteResult st = .ok t) :
    t.width = s.width ∧ t.rsp = s.rsp ∧ t.resetSeen = s.resetSeen ∧ t.pending = s.pending ∧
      ∃ es, t.record = s.record ++ es := by
  unfold State.noteResult at h
  split at h
  · split at h
    · cases hc : s.cwOfSource ‹_› with
      | error f => simp [hc, Except.map] at h
      | ok v =>
        simp only [hc, Except.map, Except.ok.injEq] at h
        subst h; exact ⟨rfl, rfl, rfl, rfl, _, rfl⟩
    · simp only [Except.ok.injEq] at h
      subst h; exact ⟨rfl, rfl, rfl, rfl, _, rfl⟩
  · simp only [Except.ok.injEq] at h
    subst h; exact ⟨rfl, rfl, rfl, rfl, [], by simp⟩

/-- Going through the statements keeps the block; the ports fit their widths. -/
theorem State.nextStatement_frame (l : List Stmt) {s t : State} (h : s.nextStatement l = .next t) :
    t.width = s.width ∧ t.rsp = s.rsp ∧ t.resetSeen = s.resetSeen ∧ t.inp.Fits t.width ∧
      ∃ es, t.record = s.record ++ es := by
  induction l generalizing s with
  | nil =>
    simp only [State.nextStatement, Host.Outcome.next.injEq] at h
    subst h; exact ⟨rfl, rfl, rfl, Inputs.idle_fits _, [], by simp⟩
  | cons st rest ih =>
    simp only [State.nextStatement] at h
    split at h
    · obtain ⟨a, b, c, d, es, e⟩ := ih h
      exact ⟨a, b, c, d, .refused _ :: es, by rw [e, State.note_record, List.append_assoc]; rfl⟩
    · split at h
      · rename_i hn
        obtain ⟨a', b', c', -, es', e'⟩ := State.noteResult_frame hn
        obtain ⟨a, b, c, d, es, e⟩ := ih h
        exact ⟨a.trans a', b.trans b', c.trans c', d, es' ++ es, by rw [e, e']; simp⟩
      · simp at h
    · obtain ⟨a, b, c, d, -, -, e, -⟩ := State.drive_frame h
      exact ⟨a, b, c, d, [], by simpa using e⟩

/-- The host's move keeps the block; the ports fit their widths and the record grows at its end. -/
theorem State.presentNext_frame {s t : State} (h : s.presentNext = .next t) :
    t.width = s.width ∧ t.rsp = s.rsp ∧ t.resetSeen = s.resetSeen ∧ t.inp.Fits t.width ∧
      ∃ es, t.record = s.record ++ es := by
  unfold State.presentNext at h
  split at h
  · obtain ⟨a, b, c, d, -, -, e, -⟩ := State.drive_frame h
    exact ⟨a, b, c, d, [], by simpa using e⟩
  · exact State.nextStatement_frame _ h

/-- Going on answers a next state only from a next state. -/
theorem andThen_next {o : Host.Outcome State Fault Refusal}
    {f : State → Host.Outcome State Fault Refusal} {t : State} (h : andThen o f = .next t) :
    ∃ u, o = .next u ∧ f u = .next t := by
  cases o with
  | next u => exact ⟨u, rfl, h⟩
  | fault e => simp [andThen] at h
  | refused r => simp [andThen] at h

/-- What a step that answers a next state did: an edge, then the host's move after it. -/
theorem step_cases {s t : State} (h : step s = .next t) :
    s.holdsReservedCode = false ∧ ∃ u, s.edge = .next u ∧ u.cycle = .next t := by
  unfold step at h
  split at h
  · simp at h
  · rename_i hr
    exact ⟨by simpa using hr, andThen_next h⟩

/-- The registers after a step are those the edge left (R138: the host's moves do not touch them). -/
theorem cycle_frame {u t : State} (h : u.cycle = .next t) :
    t.width = u.width ∧ t.rsp = u.rsp ∧ t.resetSeen = u.resetSeen ∧ t.inp.Fits t.width ∧
      ∃ es, t.record = u.record ++ es := by
  obtain ⟨a, b, c, d, es, e⟩ := State.presentNext_frame h
  refine ⟨by simpa using a, by simpa using b, by simpa using c, d,
    (if u.resetSeen && u.rsp.valid then [.response u.rsp] else []) ++ es, ?_⟩
  rw [e, u.sample_spec.2.2.2.2.2.2.2, List.append_assoc]

/-- The host can always move on when the registers can be read. -/
theorem State.nextStatement_completes (l : List Stmt) (s : State) (h : s.resetSeen = true)
    (hr : s.holdsReservedCode = false) : ∃ t, s.nextStatement l = .next t := by
  induction l generalizing s with
  | nil => exact ⟨_, rfl⟩
  | cons st rest ih =>
    simp only [State.nextStatement]
    split
    · exact ih _ h hr
    · split
      · rename_i hn
        obtain ⟨-, b, c, -⟩ := State.noteResult_frame hn
        exact ih _ (c.trans h) (by simpa [State.holdsReservedCode, b, c] using hr)
      · rename_i hn
        unfold State.noteResult at hn
        split at hn
        · split at hn
          · obtain ⟨v, hv⟩ := State.cwOfSource_ok h hr ‹_›
            simp [hv, Except.map] at hn
          · simp at hn
        · simp at hn
    · rename_i d ds _
      obtain ⟨v, hv⟩ := State.cwOfSource_ok h hr d.cmdCw
      exact ⟨_, State.drive_ok (s := { s with pending := ds, program := rest }) (d := d) (c := v)
        (by rw [← hv]; exact State.cwOfSource_congr rfl rfl _)⟩

theorem State.presentNext_completes (s : State) (h : s.resetSeen = true)
    (hr : s.holdsReservedCode = false) : ∃ t, s.presentNext = .next t := by
  unfold State.presentNext
  split
  · rename_i d ds _
    obtain ⟨v, hv⟩ := State.cwOfSource_ok h hr d.cmdCw
    exact ⟨_, State.drive_ok (s := { s with pending := ds }) (d := d) (c := v)
      (by rw [← hv]; exact State.cwOfSource_congr rfl rfl _)⟩
  · exact State.nextStatement_completes _ s h hr

theorem cycle_completes (s : State) (h : s.resetSeen = true) (hr : s.holdsReservedCode = false) :
    ∃ t, s.cycle = .next t :=
  State.presentNext_completes _ (by simpa using h)
    (by simpa [State.holdsReservedCode] using hr)

/-- Readable registers stay readable through an edge, and the edge answers a next state with the host's
side as it was. -/
theorem State.edge_readable {s : State} (h : s.resetSeen = true) (hr : s.holdsReservedCode = false) :
    ∃ u, s.edge = .next u ∧ u.resetSeen = true ∧ u.holdsReservedCode = false ∧ u.width = s.width ∧
      u.pending = s.pending ∧ u.program = s.program := by
  have hl : ∀ r : Response, r.Lawful s.width → (s.respond r).holdsReservedCode = false := fun r hl => by
    have := hl.1
    simp [State.holdsReservedCode, reservedResponseCode, this.1, this.2]
  rcases s.edge_cases with ⟨-, e⟩ | ⟨-, -, e⟩ | ⟨-, -, e⟩ <;> rw [e]
  · exact ⟨_, rfl, rfl, rfl, rfl, rfl, rfl⟩
  · exact ⟨_, rfl, h, hl _ (Instr.response_lawful _ _), rfl, rfl, rfl⟩
  · exact ⟨_, rfl, h, hr, rfl, rfl, rfl⟩

/-- Going through statements uses up one cycle of them, or, when they have none, ends the run. -/
theorem State.nextStatement_cycles (l : List Stmt) {s t : State} (hp : s.pending = [])
    (h : s.nextStatement l = .next t) :
    ((l.map (Stmt.cycles s.width)).sum = 0 → t.runEnded = true) ∧
    (∀ n, (l.map (Stmt.cycles s.width)).sum = n + 1 → t.driving = true ∧ t.cyclesLeft = n) := by
  induction l generalizing s with
  | nil =>
    simp only [State.nextStatement, Host.Outcome.next.injEq] at h
    subst h
    simp [State.runEnded, hp, Inputs.idle]
  | cons st rest ih =>
    simp only [State.nextStatement] at h
    simp only [List.map_cons, List.sum_cons]
    split at h
    · rename_i he
      have hc : st.cycles s.width = 0 := by simp [Stmt.cycles, he]
      rw [hc, Nat.zero_add]
      exact ih (s := s.note _) hp h
    · rename_i he
      have hc : st.cycles s.width = 0 := by simp [Stmt.cycles, he]
      rw [hc, Nat.zero_add]
      split at h
      · rename_i hn
        obtain ⟨a, -, -, d, -⟩ := State.noteResult_frame hn
        rw [← a]
        exact ih (d.trans hp) h
      · simp at h
    · rename_i d ds he
      have hc : st.cycles s.width = ds.length + 1 := by simp [Stmt.cycles, he]
      obtain ⟨a, -, -, -, b, c, -, e⟩ := State.drive_frame h
      rw [hc]
      refine ⟨fun h0 => by omega, fun n hn => ⟨e, ?_⟩⟩
      simp only [State.cyclesLeft, a, b, c]
      omega

/-- The host's move uses up one of its cycles, or, when it has none left, ends the run. -/
theorem State.presentNext_cycles {s t : State} (h : s.presentNext = .next t) :
    (s.cyclesLeft = 0 → t.runEnded = true) ∧
    (∀ n, s.cyclesLeft = n + 1 → t.driving = true ∧ t.cyclesLeft = n) := by
  unfold State.presentNext at h
  split at h
  · rename_i d ds hp
    obtain ⟨a, -, -, -, b, c, -, e⟩ := State.drive_frame h
    refine ⟨fun h0 => by simp [State.cyclesLeft, hp] at h0, fun n hn => ⟨e, ?_⟩⟩
    simp only [State.cyclesLeft, hp, List.length_cons] at hn
    simp only [State.cyclesLeft, a, b, c]
    omega
  · rename_i hp
    have := State.nextStatement_cycles s.program hp h
    simpa [State.cyclesLeft, hp] using this

/-- Lawful registers hold no reserved code (R32). -/
theorem State.holdsReservedCode_of_lawful {s : State} (h : s.resetSeen = true → s.rsp.Lawful s.width) :
    s.holdsReservedCode = false := by
  unfold State.holdsReservedCode
  cases hs : s.resetSeen with
  | false => simp
  | true => have := (h hs).1; simp [reservedResponseCode, this.1, this.2]

end Sys2Proof.Machine
end

