-- ==== Sys2Proof/Laws/HostLayer.lean ====
section
/-! SUPPORT. What the host layer's conversions do, and that the host's move does not look at the ports
it is about to drive. -/

namespace Sys2Proof.Machine

/-- Bit `i` of the vector of a string (R60). -/
theorem getLsbD_vectorOfChars {n : Nat} (s : List Char) {i : Nat} (hi : i < n) :
    (vectorOfChars n s).getLsbD i = (s[i]? == some '1') := by
  induction s generalizing i with
  | nil => simp [vectorOfChars]
  | cons c s ih =>
    have hc : vectorOfChars n (c :: s) =
        ((vectorOfChars n s) <<< 1) ||| (if c = '1' then 1#n else 0#n) := rfl
    rw [hc, BitVec.getLsbD_or, BitVec.getLsbD_shiftLeft]
    cases i with
    | zero => by_cases h : c = '1' <;> simp [h, hi]
    | succ i =>
      have h1 : i + 1 - 1 = i := by omega
      have h2 : i < n := by omega
      simp only [h1, ih h2, hi]
      by_cases h : c = '1' <;> simp [h]

/-- The vector of a string has no more bits than the string has characters (R60). -/
theorem vectorOfChars_lt (n : Nat) (s : List Char) : (vectorOfChars n s).toNat < 2 ^ s.length := by
  apply lt_of_high_bits_false
  intro i hi
  by_cases h : i < n
  · rw [getLsbD_vectorOfChars _ h]; simp [hi]
  · exact BitVec.getLsbD_of_ge _ _ (by omega)

/-- A drive does not look at the ports as they are. -/
theorem State.drive_inp (s : State) (p : Inputs) (d : Drive) :
    ({ s with inp := p } : State).drive d = s.drive d := by
  have := State.cwOfSource_congr (s := { s with inp := p }) (t := s) rfl rfl d.cmdCw
  simp [State.drive, this]

/-- Noting a host-level result does not look at the ports. -/
theorem State.noteResult_inp (s : State) (p : Inputs) (st : Stmt) :
    ({ s with inp := p } : State).noteResult st =
      (s.noteResult st).map fun t => { t with inp := p } := by
  unfold State.noteResult
  split
  · split <;> rename_i h <;> simp only at h <;> simp only [h]
    · rw [State.cwOfSource_congr (s := { s with inp := p }) (t := s) rfl rfl]
      cases s.cwOfSource ‹_› <;> rfl
    · rfl
  · rfl

/-- Going through the statements does not look at the ports. -/
theorem State.nextStatement_inp (l : List Stmt) (s : State) (p : Inputs) :
    ({ s with inp := p } : State).nextStatement l = s.nextStatement l := by
  induction l generalizing s with
  | nil => rfl
  | cons st rest ih =>
    simp only [State.nextStatement, State.noteResult_inp]
    cases he : st.expand s.width with
    | error e => exact ih (s.note _)
    | ok ds =>
      cases ds with
      | nil =>
        cases h : s.noteResult st with
        | error f => simp [Except.map]
        | ok u => simp only [Except.map]; exact ih u
      | cons d ds => exact State.drive_inp { s with pending := ds, program := rest } p _

/-- The host's move does not look at the ports as they are. -/
theorem State.presentNext_inp (s : State) (p : Inputs) :
    ({ s with inp := p } : State).presentNext = s.presentNext := by
  obtain ⟨w, i, r, b, pe, pr, re, dr⟩ := s
  cases pe with
  | cons d ds => exact State.drive_inp ⟨w, i, r, b, ds, pr, re, dr⟩ p _
  | nil => exact State.nextStatement_inp _ ⟨w, i, r, b, [], pr, re, dr⟩ p

/-- Noting a host-level result does not look at the statements still to be presented. -/
theorem State.noteResult_program (s : State) (p : List Stmt) (st : Stmt) :
    ({ s with program := p } : State).noteResult st =
      (s.noteResult st).map fun t => { t with program := p } := by
  unfold State.noteResult
  split
  · split <;> rename_i h <;> simp only at h <;> simp only [h]
    · rw [State.cwOfSource_congr (s := { s with program := p }) (t := s) rfl rfl]
      cases s.cwOfSource ‹_› <;> rfl
    · rfl
  · rfl

/-- Going through statements looks at those given, not at the ones the state holds. -/
theorem State.nextStatement_program (l : List Stmt) (s : State) (p : List Stmt) :
    ({ s with program := p } : State).nextStatement l = s.nextStatement l := by
  induction l generalizing s with
  | nil => rfl
  | cons st rest ih =>
    simp only [State.nextStatement, State.noteResult_program]
    cases he : st.expand s.width with
    | error e => exact ih (s.note _)
    | ok ds =>
      cases ds with
      | nil =>
        cases h : s.noteResult st with
        | error f => simp [Except.map]
        | ok u => simp only [Except.map]; exact ih u
      | cons d ds => rfl

end Sys2Proof.Machine
end

