-- ==== Sys2Proof/Laws/PerInstr.lean ====
section
/-! SUPPORT. The per-instruction family OpField: the word of a command carries the command's operation
code in `CMD[1:0]` (R52, R53), whatever its operands. -/

open Sys2Proof

/-- `CMD[1:0]` of the command's word is the command's operation code (R53). -/
def Sys2Proof.Laws.OpField.Statement (i : Instr) : Prop :=
  ∀ w : Width, (Sys2Proof.encode w i).extractLsb' 0 2 = i.op

theorem Sys2Proof.Laws.OpField.encode (d : DataWord) : Statement (.encode d) :=
  fun w => Machine.extractLsb'_pack_op w _

theorem Sys2Proof.Laws.OpField.decode (c : CodeWord) : Statement (.decode c) :=
  fun w => Machine.extractLsb'_pack_op w _

theorem Sys2Proof.Laws.OpField.flip (c : CodeWord) (p : PosWord) : Statement (.flip c p) :=
  fun w => Machine.extractLsb'_pack_op w _

theorem Sys2Proof.Laws.OpField.illegalOp : Statement .illegalOp :=
  fun w => Machine.extractLsb'_pack_op w _
end

