-- ==== Sys2Proof/Tests/Slice0.lean ====
section
/-! SUPPORT. Tests and witnesses. A test's expected values stand in spec/95_test_vectors.md (V1 to V13,
P1 to P6) or in the rule named; a witness shows a state and operands that meet all hypotheses of the
statement it is named after. -/

namespace Sys2Proof.Machine

/-- The instance `w` after reset, with a command on its ports. -/
def tPorts (w : Width) (op : Code) (d : DataWord) (c : CodeWord) (p : PosWord) : State :=
  { State.resetOf w with inp := ⟨false, true, op, d, c, p⟩ }

/-! Well-formedness: an ill-formed term for each check. -/

theorem test_wf_refuses_data : WellFormed .k8 (.encode 0x100#32) = false := by decide
theorem test_wf_refuses_cw : WellFormed .k8 (.decode 0x1000#38) = false := by decide
theorem test_wf_refuses_flip_cw : WellFormed .k16 (.flip 0x200000#38 1#6) = false := by decide
theorem test_wf_refuses_flip_pos : WellFormed .k16 (.flip 0#38 32#6) = false := by decide
theorem test_wf_accepts_largest : WellFormed .k8 (.flip 0xFFF#38 15#6) = true := by decide
theorem test_wf_accepts_illegal : WellFormed .k8 .illegalOp = true := by decide

/-! Decoding: words written out field by field (R52), `pos`, `cw`, `data`, `op`. -/

/-- K = 8, ENCODE of D1 to D8 = 1,1,0,1,0,0,1,0 (P1 edge 1). -/
theorem test_decode_encode_k8 :
    (decode .k8 0b0000_000000000000_01001011_00#78).toOption = some (.encode 0x4B#32) := by decide

/-- K = 8, DECODE of `0x4C6` (P1 edge 3). -/
theorem test_decode_decode_k8 :
    (decode .k8 0b0000_010011000110_00000000_01#78).toOption = some (.decode 0x4C6#38) := by decide

/-- K = 8, FLIP of `0x4D6` at 5 (P1 edge 2), with the ignored data field all ones. -/
theorem test_decode_flip_k8 :
    (decode .k8 0b0101_010011010110_11111111_10#78).toOption = some (.flip 0x4D6#38 5#6) := by decide

/-- K = 8, op `11` with every other field all ones (V10). -/
theorem test_decode_illegal_k8 : (decode .k8 0x3FFFFFF#78).toOption = some .illegalOp := by decide

/-- K = 16, FLIP of `0x02A3A1` at 22 (P6 edge 4). -/
theorem test_decode_flip_k16 :
    (decode .k16 0b10110_000101010001110100001_0000000000000000_10#78).toOption =
      some (.flip 0x02A3A1#38 22#6) := by decide

/-- K = 32, ENCODE of `0xDEADBEEF` (P5 edge 1). -/
theorem test_decode_encode_k32 :
    (decode .k32 0x0000000000037AB6FBBC#78).toOption = some (.encode 0xDEADBEEF#32) := by decide

/-- K = 32, FLIP of `0x37D5B76E77` at 32 (P5 edge 4), through the encoder. -/
theorem test_encode_flip_k32 :
    encode .k32 (.flip 0x37D5B76E77#38 32#6) = 0x20DF56DDB9DC00000002#78 := by decide

/-- A 27-bit number is no command of CORE-K8 (R57). -/
theorem test_decode_too_wide : (decodeNat .k8 0x4000000).toOption = none := by decide

/-- The four rows of the opcode table. -/
theorem test_table_words : (List.range 4).map (decodeTableWord 8) =
    [some (.encode 0#32), some (.decode 0#38), some (.flip 0#38 0#6), some .illegalOp] := by decide

/-! Layout, encoder, decoder, flipper: the spec's vectors. -/

theorem test_layout_k32 : Width.k32.m = 6 ∧ Width.k32.n = 38 ∧ Width.k32.cmdBits = 78 := by decide

theorem test_core_name : Width.k16.coreName = "CORE-K16" := by decide

/-- V7, the three widths. -/
theorem test_encode_vectors : Codec.encode .k8 0xAA#32 = 0xA58#38 ∧
    Codec.encode .k16 0x1234#32 = 0x02A3A1#38 ∧
    Codec.encode .k32 0xDEADBEEF#32 = 0x37D5B76E77#38 := by decide +kernel

/-- V7: a data word whose only set bit is the last one. -/
theorem test_encode_last_bit : Codec.encode .k8 0x80#32 = 0x888#38 ∧
    Codec.encode .k16 0x8000#32 = 0x108009#38 ∧
    Codec.encode .k32 0x80000000#32 = 0x208000000A#38 := by decide +kernel

/-- V5, K = 16: `e = N + 1` is UNCORRECTABLE and returns the received word. -/
theorem test_decode_uncorrectable : Codec.decodeResponse .k16 0x022381#38 =
    ⟨true, 1#2, 0#2, 2#2, 22#6, 0#6, 0x1230#32, 0x022381#38⟩ := by decide +kernel

/-- V8, K = 32: `e = N` is CORRECTED. -/
theorem test_decode_last_position : Codec.decodeResponse .k32 0x17D5B76E77#38 =
    ⟨true, 1#2, 0#2, 1#2, 38#6, 38#6, 0xDEADBEEF#32, 0x37D5B76E77#38⟩ := by decide +kernel

/-- V9, K = 8: the last position. -/
theorem test_flip_last_position : Codec.flip 0x4D6#38 12 = 0xCD6#38 := by decide

/-! One step of each command, of reset and of idle, through the ports. -/

/-- P1 edge 1. -/
theorem test_step_encode : ∃ t, step (tPorts .k8 0#2 0x4B#32 0#38 0#6) = .next t ∧
    t.rsp = ⟨true, 0#2, 0#2, 0#2, 0#6, 0#6, 0#32, 0x4D6#38⟩ := ⟨_, rfl, by decide +kernel⟩

/-- P1 edge 3. -/
theorem test_step_decode : ∃ t, step (tPorts .k8 1#2 0#32 0x4C6#38 0#6) = .next t ∧
    t.rsp = ⟨true, 1#2, 0#2, 1#2, 5#6, 5#6, 0x4B#32, 0x4D6#38⟩ := ⟨_, rfl, by decide +kernel⟩

/-- P6 edge 4: `q = N + 1`. -/
theorem test_step_flip_out_of_range : ∃ t, step (tPorts .k16 2#2 0#32 0x02A3A1#38 22#6) = .next t ∧
    t.rsp = ⟨true, 2#2, 1#2, 0#2, 0#6, 0#6, 0#32, 0#38⟩ := ⟨_, rfl, by decide +kernel⟩

/-- P1 edge 2. -/
theorem test_step_flip : ∃ t, step (tPorts .k8 2#2 0#32 0x4D6#38 5#6) = .next t ∧
    t.rsp = ⟨true, 2#2, 0#2, 0#2, 0#6, 0#6, 0#32, 0x4C6#38⟩ := ⟨_, rfl, by decide +kernel⟩

/-- V10. -/
theorem test_step_illegal : ∃ t, step (tPorts .k8 3#2 0xFF#32 0xFFF#38 15#6) = .next t ∧
    t.rsp = ⟨true, 3#2, 2#2, 0#2, 0#6, 0#6, 0#32, 0#38⟩ := ⟨_, rfl, by decide +kernel⟩

/-- V11: a reset edge wins over a command (P4 edge 6). -/
theorem test_step_reset_wins : ∃ t,
    step { State.resetOf .k8 with inp := ⟨true, true, 0#2, 0x4B#32, 0#38, 0#6⟩,
                                  rsp := ⟨false, 3#2, 2#2, 0#2, 0#6, 0#6, 0#32, 0#38⟩ } = .next t ∧
    t.rsp = Response.atReset := ⟨_, rfl, by decide +kernel⟩

/-- V11: an idle edge holds the response (P2 edge 5). -/
theorem test_step_idle : ∃ t,
    step { State.resetOf .k8 with rsp := ⟨true, 1#2, 0#2, 2#2, 15#6, 0#6, 0x69#32, 0x6C6#38⟩ } =
      .next t ∧
    t.rsp = ⟨false, 1#2, 0#2, 2#2, 15#6, 0#6, 0x69#32, 0x6C6#38⟩ := ⟨_, rfl, by decide +kernel⟩

/-- The first step after reset runs a placed word (V7, `0x4B`). -/
theorem test_fetch_word : ∃ t, step (State.reset.withFetchWord 26 0x000012C) = .next t ∧
    t.rsp.cw = 0x4D6#38 := ⟨_, rfl, by decide +kernel⟩

/-! Host layer (V12, V13). -/

theorem test_data_string : (hostToVector 32 ['1', '1', '0', '1', '0', '0', '1', '0'] 8).toOption =
    some 0x4B#32 := by decide

/-- V12: the length is checked before the symbol. -/
theorem test_length_before_symbol : hostToVector 38
    ['0', '1', '1', '0', '1', '0', '1', '1', '0', '0', '1', '0', '2'] 12 = .error .lengthMismatch := by
  rfl

/-- V4: `encode("1a010010")`. -/
theorem test_invalid_symbol : hostToVector 32 ['1', 'a', '0', '1', '0', '0', '1', '0'] 8 =
    .error .invalidSymbol := by rfl

/-- V12: the codeword string of V1. -/
theorem test_codeword_string : codewordString .k8 0x4D6#38 =
    ['0', '1', '1', '0', '1', '0', '1', '1', '0', '0', '1', '0'] := by decide

/-- V2: the response of the DECODE as the host layer returns it, the position as the integer 5 (R63). -/
theorem test_host_result :
    Response.toHost .k8 ⟨true, 1#2, 0#2, 1#2, 5#6, 5#6, 0x4B#32, 0x4D6#38⟩ =
      ⟨true, 1#2, 0#2, 1#2, 5, 5, ['1', '1', '0', '1', '0', '0', '1', '0'],
        ['0', '1', '1', '0', '1', '0', '1', '1', '0', '0', '1', '0']⟩ := by decide

/-- P2: the run does not end at edge 4, its last command, but at edge 5, that of its trailing IDLE. -/
theorem test_run_end : ∃ t u,
    step { tPorts .k8 1#2 0#32 0x6C6#38 0#6 with program := [.idle 1], driving := true } = .next t ∧
    step t = .next u ∧ t.runEnded = false ∧ t.rsp.valid = true ∧ u.runEnded = true ∧
    u.rsp.valid = false := ⟨_, _, rfl, rfl, rfl, rfl, rfl, rfl⟩

/-- V12: positions 16 and -1 are the host's to refuse, 13 is driven. -/
theorem test_position_operand : (positionOperand .k8 16).toOption = none ∧
    (positionOperand .k8 (-1)).toOption = none ∧
    (positionOperand .k8 13).toOption = some 13#6 := by decide

/-- V13: the order of the checks. -/
theorem test_inject_checks :
    (Stmt.inject (.hex 0x4D6) [5, 5]).expand .k8 = .error .duplicatePosition ∧
    (Stmt.inject (.hex 0x4D6) [5, 13]).expand .k8 = .error .positionOutOfRange ∧
    (Stmt.inject (.bits ['0', '1', '1', '0']) [5]).expand .k8 = .error .lengthMismatch :=
  ⟨rfl, rfl, rfl⟩

/-- V12: `ENCODE 0x100`. -/
theorem test_hex_too_large : (Stmt.encode (.hex 0x100)).expand .k8 = .error .lengthMismatch := rfl

/-- The text of an INJECT (R64): `INJECT rsp_cw, (5, 10)` with the braces of the spec. -/
theorem test_asm_inject : (Asm.line (['I', 'N', 'J', 'E', 'C', 'T', ' ', 'r', 's', 'p', '_', 'c', 'w',
    ',', ' ', Char.ofNat 123, '5', ',', ' ', '1', '0', Char.ofNat 125])).toOption =
    some (some (.inject .rspCw [5, 10])) := by decide

/-- `.cmd 0x3F` and an ENCODE of a string with a foreign symbol, which the host layer refuses (R61). -/
theorem test_asm_program : (assemble (['.', 'c', 'm', 'd', ' ', '0', 'x', '3', 'F', '\n', '\n',
    'E', 'N', 'C', 'O', 'D', 'E', ' ', '"', ';', '"'])).toOption =
    some [.cmd 0x3F, .encode (.bits [';'])] := by decide

theorem test_asm_refuses : Asm.line ['H', 'A', 'L', 'T'] = .error .notAStatement := by rfl

/-! Witnesses: the hypotheses of each statement are met. -/

theorem witness_WordSelectsItsOperation :
    (∀ w ∈ [Width.k8, Width.k16, Width.k32], ∀ op ∈ [0, 1, 2, 3],
      let c : CmdWord := BitVec.ofNat 78 (2 ^ w.cmdBits - 4 + op)
      c.toNat < 2 ^ w.cmdBits ∧ c.extractLsb' 0 2 = BitVec.ofNat 2 op) ∧
    2 ^ Width.k8.cmdBits ≤ 2 ^ 26 ∧ (decode .k8 0#78).toOption = some (.encode 0#32) := by
  decide +kernel

theorem witness_DecodeOfEncodeIsIdentity :
    WellFormed .k32 (.flip 0x3FFFFFFFFF#38 63#6) = true ∧ WellFormed .k8 (.encode 0xFF#32) = true ∧
    WellFormed .k16 (.decode 0x1FFFFF#38) = true ∧ WellFormed .k8 .illegalOp = true := by decide

theorem witness_PackedWordIsItsFields :
    (0x3FFFFFF#78).toNat < 2 ^ Width.k8.cmdBits ∧ (0xFF#32).toNat < 2 ^ Width.k8.k ∧
    (0xFFF#38).toNat < 2 ^ Width.k8.n ∧ (15#6).toNat < 2 ^ Width.k8.m := by decide

theorem witness_StepRunsThePresentedCommand :
    (tPorts .k8 2#2 0#32 0x4D6#38 5#6).holdsReservedCode = false ∧
    (tPorts .k8 2#2 0#32 0x4D6#38 5#6).Presents (.flip 0x4D6#38 5#6) ∧
    0x1535802 < 2 ^ State.reset.width.cmdBits ∧
    (decodeNat State.reset.width 0x1535802).toOption = some (.flip 0x4D6#38 5#6) := by decide

theorem witness_CommandFrame : ∃ t, exec (.encode 1#32) State.reset = .next t := ⟨_, rfl⟩

theorem witness_ResponseAfterOneEdge : (tPorts .k16 1#2 0#32 0x1FFFFF#38 0#6).Readable ∧
    (tPorts .k16 1#2 0#32 0x1FFFFF#38 0#6).Presents (.decode 0x1FFFFF#38) := by decide

theorem witness_ResponseDependsOnlyOnTheCommand :
    (tPorts .k8 3#2 0#32 0#38 0#6).width = State.reset.width ∧
      tPorts .k8 3#2 0#32 0#38 0#6 ≠ State.reset := by decide

/-- An ENCODE with other values on the ports it ignores, and an idle edge with a command's fields. -/
theorem witness_UnreadPortsNeverMatter :
    (let s := tPorts .k8 0#2 0x4B#32 0#38 0#6
     let p : Inputs := ⟨false, true, 0#2, 0x4B#32, 0xFFF#38, 15#6⟩
     p.rst = s.inp.rst ∧ p.cmdValid = s.inp.cmdValid ∧ p.cmdOp = s.inp.cmdOp ∧
       (s.inp.cmdOp = 0#2 → p.cmdData = s.inp.cmdData) ∧ s.inp.cmdOp ≠ 1#2 ∧ s.inp.cmdOp ≠ 2#2) ∧
    (let s := State.reset
     let p : Inputs := ⟨false, false, 2#2, 0xFF#32, 0xFFF#38, 15#6⟩
     p.rst = s.inp.rst ∧ p.cmdValid = s.inp.cmdValid ∧ s.inp.cmdValid = false ∧ p ≠ s.inp) := by
  decide

theorem witness_ResetEdgeClearsTheRegisters :
    let s : State := { tPorts .k8 0#2 0x4B#32 0#38 0#6 with inp := ⟨true, true, 0#2, 0x4B#32, 0#38, 0#6⟩ }
    s.holdsReservedCode = false ∧ s.inp.rst = true := by decide

theorem witness_IdleEdgeHoldsTheResponse : State.reset.inp.rst = false ∧
    State.reset.inp.cmdValid = false ∧ State.reset.Readable := by decide

/-- Steps that answer a next state: idle, a command, and a reset edge before any other. -/
theorem witness_ValidFollowsCmdValid : (∃ t, step State.reset = .next t) ∧
    (∃ t, step (tPorts .k8 3#2 0#32 0#38 0#6) = .next t) ∧
    (∃ t, step { State.powerUp .k8 Response.atReset with inp := ⟨true, false, 0#2, 0#32, 0#38, 0#6⟩ } =
      .next t) := ⟨⟨_, rfl⟩, ⟨_, rfl⟩, ⟨_, rfl⟩⟩

theorem witness_StepKeepsTheWidth : ∃ t, step (tPorts .k32 1#2 0#32 0#38 0#6) = .next t := ⟨_, rfl⟩

theorem witness_HostCycleKeepsTheRegisters :
    ∃ t, State.cycle { State.reset with program := [.idle 2] } = .next t := ⟨_, rfl⟩

theorem witness_UnresetRegistersAreUnreadable :
    (State.powerUp .k8 Response.atReset).resetSeen = false ∧ (Drive.flip .rspCw 5#6).cmdCw = .rspCw ∧
    State.reset.Readable ∧
    ∃ t, step (State.powerUp .k8 Response.atReset) = .next t := ⟨rfl, rfl, by decide, _, rfl⟩

theorem witness_ReservedCodeIsAFault :
    (let s : State := { State.reset with rsp := { Response.atReset with err := 3#2 } }
     s.resetSeen = true ∧ s.rsp.err = 3#2) ∧
    (let s : State := { State.reset with rsp := { Response.atReset with status := 3#2 } }
     s.resetSeen = true ∧ s.rsp.status = 3#2) := by decide

theorem witness_StepKeepsTheInvariant : (tPorts .k8 1#2 0#32 0x6C6#38 0#6).Inv ∧
    ∃ t, step (tPorts .k8 1#2 0#32 0x6C6#38 0#6) = .next t := ⟨by decide, _, rfl⟩

theorem witness_LawsAfterAnyEdgesFromReset :
    let s : State := { State.powerUp .k8 Response.atReset with
      inp := ⟨true, false, 0#2, 0#32, 0#38, 0#6⟩, program := [.decode (.hex 0x6C6)] }
    s.inp.rst = true ∧ ∃ t, Host.Core.run core (1 + 1) s = .next t := ⟨rfl, _, rfl⟩

theorem witness_ParityCountIsSmallest : 3 < parityCount 8 ∧ 24 ≠ 8 ∧ 24 ≠ 16 ∧ 24 ≠ 32 := by decide

theorem witness_PositionTables : 1 ∈ Width.k8.positions ∧ 12 ∈ Width.k8.positions := by decide

theorem witness_DataIndexInvertsDataPos : 8 ≤ Width.k8.k ∧ 12 ∈ Width.k8.positions ∧
    isPow2 12 = false := by decide

theorem witness_CoverageTables : 3 < Width.k8.m ∧ 12 ∈ Width.k8.positions ∧
    8 ∈ Width.k8.paritySet ∧ 1 ∈ Width.k8.paritySet ∧ isPow2 12 = false := by decide

theorem witness_PlaceFillsTheDataPositions : 32 ≤ Width.k32.k ∧ 32 ∈ Width.k32.paritySet := by decide

theorem witness_EncodeWritesTheParities : 16 ∈ Width.k16.paritySet ∧ 21 ∈ Width.k16.positions ∧
    21 ∉ Width.k16.paritySet ∧ [16, 8, 4, 2, 1].Perm Width.k16.paritySet := by decide

theorem witness_EncodeClosedForm : 8 ∈ Width.k8.paritySet ∧ 12 ∈ Width.k8.positions ∧
    isPow2 12 = false := by decide

theorem witness_EncodeCommand : (0x000012C#78).toNat < 2 ^ Width.k8.cmdBits ∧
    (0x000012C#78).extractLsb' 0 2 = 0#2 ∧ (0xFF#32).toNat < 2 ^ State.reset.width.k := by decide

theorem witness_RoundTrip : (0xFFFFFFFF#32).toNat < 2 ^ (State.resetOf .k32).width.k := by decide

theorem witness_SyndromeBits : 5 < Width.k32.m := by decide

theorem witness_ZeroSyndromeIsCodeword : (0xFFF#38).toNat < 2 ^ Width.k8.n ∧
    (0xFF#32).toNat < 2 ^ Width.k8.k := by decide

theorem witness_SyndromeIsLinear : 38 ∈ Width.k32.positions ∧
    Codec.syndrome .k8 0x4D6#38 = 0#6 ∧ [5, 10].Nodup ∧ ∀ i ∈ [5, 10], i ∈ Width.k8.positions := by
  decide +kernel

theorem witness_SyndromeRange : 38 ∈ Width.k32.positions ∧ 1 ∈ Width.k32.positions := by decide

/-- `e = 0`, `e = 1`, `e = N` and `e = N + 1` (V8, V5). -/
theorem witness_DecodeCommand : (0x0131801#78).toNat < 2 ^ Width.k8.cmdBits ∧
    (0x0131801#78).extractLsb' 0 2 = 1#2 ∧
    (Codec.syndrome .k8 0x4D6#38).toNat = 0 ∧ (0xCD7#38).toNat < 2 ^ Width.k8.n ∧
    (Codec.syndrome .k8 0x4D7#38).toNat = 1 ∧ (Codec.syndrome .k8 0xCD6#38).toNat = Width.k8.n ∧
    (Codec.syndrome .k8 0xCD7#38).toNat = Width.k8.n + 1 := by decide +kernel

theorem witness_ExtractReadsTheDataPositions : 16 ≤ Width.k16.k ∧ 1 ∈ Width.k16.paritySet := by decide

theorem witness_ParityPositionCorrection :
    (Codec.syndrome (State.resetOf .k16).width 0x0223A1#38).toNat ∈ (State.resetOf .k16).width.paritySet ∧
    (0x0223A1#38).toNat < 2 ^ (State.resetOf .k16).width.n := by decide +kernel

theorem witness_SingleErrorIsCorrected : (0x4B#32).toNat < 2 ^ State.reset.width.k ∧
    1 ≤ (12#6).toNat ∧ (12#6).toNat ≤ State.reset.width.n := by decide

/-- Two flips with `e <= N`, with `e = N + 1`, and with `e > N` on parity positions only (V5). -/
theorem witness_MultiBitErrors : (0x4B#32).toNat < 2 ^ Width.k8.k ∧
    (∀ i ∈ [1, 2, 4, 8, 12], i ∈ Width.k8.positions) ∧ (1 ^^^ 2) ≤ Width.k8.n ∧
    Width.k8.n < (1 ^^^ 12) ∧ (4 ^^^ 8) ≤ Width.k8.n ∧ 16 ∈ Width.k32.positions ∧
    32 ∈ Width.k32.positions ∧ Width.k32.n < (16 ^^^ 32) := by decide

theorem witness_FlipAlgebra : 1 ∈ Width.k8.positions ∧ 12 ∈ Width.k8.positions ∧ [12, 1].Nodup ∧
    [1, 12].Perm [12, 1] ∧ ∀ i ∈ [12, 1], i ∈ Width.k8.positions := by decide

/-- Positions 1, `N`, 0 and `N + 1`. -/
theorem witness_FlipCommand : (0x1535802#78).toNat < 2 ^ Width.k8.cmdBits ∧
    (0x1535802#78).extractLsb' 0 2 = 2#2 ∧ (0xFFF#38).toNat < 2 ^ State.reset.width.n ∧
    (13#6).toNat < 2 ^ State.reset.width.m ∧ State.reset.width.n < (13#6).toNat ∧ (0#6).toNat < 1 ∧
    1 ≤ (1#6).toNat ∧ (12#6).toNat ≤ State.reset.width.n := by decide

theorem witness_IllegalOpCommand : (0x0000003#78).toNat < 2 ^ Width.k8.cmdBits ∧
    (0x0000003#78).extractLsb' 0 2 = 3#2 ∧
    ∃ t, exec .illegalOp State.reset = .next t ∧ t.rsp.err ≠ 0#2 := ⟨by decide, by decide, _, rfl, by decide⟩

theorem witness_ErrorIsNotSticky : ∃ t, exec .illegalOp State.reset = .next t := ⟨_, rfl⟩

theorem witness_OnlySupportedWidthsElaborate : ¬ (7 = 8 ∨ 7 = 16 ∨ 7 = 32) := by decide

theorem witness_BitStringConversion :
    ['1', '0', '1'].length ≠ Width.k8.k ∧
    (['1', 'a', '0', '1', '0', '0', '1', '0'].length = Width.k8.k ∧
      ∃ c ∈ ['1', 'a', '0', '1', '0', '0', '1', '0'], c ≠ '0' ∧ c ≠ '1') ∧
    ((List.replicate 8 '0').length = Width.k8.k ∧ ∀ c ∈ List.replicate 8 '0', c = '0' ∨ c = '1') ∧
    ((List.replicate 12 '1').length = Width.k8.n ∧
      ∀ c ∈ List.replicate 12 '1', c = '0' ∨ c = '1') ∧
    ((List.replicate 12 '2').length = Width.k8.n ∧
      ∃ c ∈ List.replicate 12 '2', c ≠ '0' ∧ c ≠ '1') :=
  ⟨by decide, ⟨rfl, 'a', by simp, by simp, by simp⟩,
    ⟨by decide, fun _ h => .inl (List.eq_of_mem_replicate h)⟩,
    ⟨by decide, fun _ h => .inr (List.eq_of_mem_replicate h)⟩,
    by decide, '2', by simp, by simp, by simp⟩

theorem witness_BitStringRoundTrip : State.reset.width = .k8 ∧ State.reset.Readable ∧
    (15#6).toNat < 2 ^ Width.k8.m ∧ (positionOperand .k8 15).toOption = some 15#6 ∧
    8 ≤ Width.k8.k ∧ 12 ≤ Width.k8.n ∧ (0x4B#32).toNat < 2 ^ Width.k8.k ∧
    (0x4D6#38).toNat < 2 ^ Width.k8.n ∧
    (hostToVector 32 (List.replicate 8 '1') Width.k8.k).toOption = some 0xFF#32 ∧
    (hostToVector 38 (List.replicate 12 '1') Width.k8.n).toOption = some 0xFFF#38 := by
  decide +kernel

/-- `q = -1`, `16`, `0`, `13 = N + 1` and `15`. -/
theorem witness_PositionConversion : (-1 : Int) < 0 ∧ (16 : Int) > 2 ^ Width.k8.m - 1 ∧
    (0 : Int) ≤ 2 ^ Width.k8.m - 1 ∧ (0 : Int) < 1 ∧ (15 : Int) ≤ 2 ^ Width.k8.m - 1 ∧
    (13 : Int) > Width.k8.n := by decide

theorem witness_HexOperands : 0xFF < 2 ^ Width.k8.k ∧ 2 ^ Width.k8.k ≤ 0x100 ∧
    0xFFF < 2 ^ Width.k8.n ∧ 2 ^ Width.k8.n ≤ 0x1000 := by decide

theorem witness_RefusedStatementIssuesNothing :
    (Stmt.encode (.hex 0x100)).expand State.reset.width = .error .lengthMismatch ∧
    State.reset.pending = [] ∧
    ({ State.reset with program := [.encode (.hex 0x100)] } : State).program =
      [.encode (.hex 0x100)] := ⟨rfl, rfl, rfl⟩

theorem witness_StatementPresentsItsCommand :
    (∀ st ∈ [Stmt.encode (.hex 0xFF), .decode .rspCw, .flip .rspCw 15, .cmd 0x3FFFFFF, .idle 1, .reset],
      let s : State := { State.reset with program := [st, .idle 2] }
      s.Fits ∧ s.Readable ∧ s.pending = [] ∧ s.program = [st, .idle 2] ∧
        (s.cwOfSource .rspCw).toOption = some 0#38) ∧
    (DataOperand.toVector State.reset.width (.hex 0xFF)).toOption = some 0xFF#32 ∧
    (CwOperand.toSource State.reset.width .rspCw).toOption = some .rspCw ∧
    (positionOperand State.reset.width 15).toOption = some 15#6 ∧
    0x3FFFFFF < 2 ^ State.reset.width.cmdBits := by decide

/-- IDLE 0, IDLE 2 and a pending cycle; the first and the last cycle of a run of IDLE 2. -/
theorem witness_IdleDrivesItsCycles :
    (∀ t ∈ [0, 2],
      let s : State := { State.reset with program := [.idle t, .reset] }
      s.pending = [] ∧ s.program = [.idle t, .reset]) ∧
    (let s : State := { State.reset with pending := [Drive.flip .rspCw 15#6, Drive.idle] }
     s.pending = [Drive.flip .rspCw 15#6, Drive.idle] ∧
      (s.cwOfSource (Drive.flip .rspCw 15#6).cmdCw).toOption = some 0#38 ∧
      (Drive.flip .rspCw 15#6).cmdData.toNat < 2 ^ s.width.k ∧ (0#38).toNat < 2 ^ s.width.n ∧
      (Drive.flip .rspCw 15#6).cmdPos.toNat < 2 ^ s.width.m) ∧
    State.reset.Readable ∧ 0 < 2 ∧ 1 < 2 := by decide

/-- A program of a refused statement, an INJECT of two positions, an IDLE 0 and a trailing IDLE 2. -/
theorem witness_RunEndsAfterItsLastCycle : State.reset.Readable ∧
    1 < (([.encode (.hex 0x100), .inject (.hex 0x4D6) [1, 12], .idle 0, .idle 2] : List Stmt).map
      (Stmt.cycles State.reset.width)).sum := by decide

theorem witness_InjectChecksThenFlips :
    (CwOperand.toSource .k8 (.hex 0x1000)) = .error .lengthMismatch ∧
    (CwOperand.toSource .k8 (.hex 0x4D6)) = .ok (.value 0x4D6#38) ∧ ¬ [5, 5].Nodup ∧
    [5, 13].Nodup ∧ (13 : Int) > Width.k8.n ∧ [1, 12].Nodup ∧
    (∀ q ∈ ([1, 12] : List Int), 1 ≤ q ∧ q ≤ Width.k8.n) ∧
    ({ State.reset with program := [.inject (.hex 0x4D6) [5, 5]] } : State).pending = [] :=
  ⟨rfl, rfl, by decide, by decide, by decide, by decide, by decide, rfl⟩

theorem witness_InjectRunFlipsThePositions : State.reset.Readable ∧
    (CwOperand.toSource State.reset.width (.hex 0x4D6)) = .ok (.value 0x4D6#38) ∧
    State.reset.cwOfSource (.value 0x4D6#38) = .ok 0x4D6#38 ∧
    (0x4D6#38).toNat < 2 ^ State.reset.width.n ∧ ([1, 12] : List Int) ≠ [] ∧
    ([1, 12] : List Int).Nodup ∧ ∀ q ∈ ([1, 12] : List Int), 1 ≤ q ∧ q ≤ State.reset.width.n :=
  ⟨by decide, rfl, rfl, by decide, by decide, by decide, by decide⟩

theorem witness_EmptyInject :
    let s : State := { State.reset with program := [.inject .rspCw []] }
    CwOperand.toSource s.width .rspCw = .ok .rspCw ∧ s.cwOfSource .rspCw = .ok 0#38 ∧
    s.pending = [] ∧ s.program = [.inject .rspCw []] := ⟨rfl, rfl, rfl, rfl⟩

theorem witness_LoopbackTakesTheNewResponse :
    let s : State := { tPorts .k8 0#2 0x4B#32 0#38 0#6 with pending := [Drive.flip .rspCw 5#6] }
    s.Inv ∧ s.pending = [Drive.flip .rspCw 5#6] ∧ (Drive.flip .rspCw 5#6).cmdCw = .rspCw ∧
    ∃ t, step s = .next t := ⟨by decide, rfl, rfl, _, rfl⟩

theorem witness_HostRecordsEveryResponse : (tPorts .k8 3#2 0#32 0#38 0#6).resetSeen = true ∧
    (tPorts .k8 3#2 0#32 0#38 0#6).Presents .illegalOp ∧
    ∃ t, step (tPorts .k8 3#2 0#32 0#38 0#6) = .next t := ⟨rfl, by decide, _, rfl⟩

end Sys2Proof.Machine
end

section
/-! SUPPORT. One step, read off its edge: what becomes of the width, the registers and the reset mark,
and that no port but the ones the edge reads matters. The statements of the state family follow from
these. -/

namespace Sys2Proof.Machine

section
variable {s t : State}

/-- What a step that answers a next state leaves in the block and on the ports: the edge (R125) writes
the registers and the reset mark (R30), and the host drives the ports within their widths (R19). -/
theorem step_spec (h : step s = .next t) :
    t.width = s.width ∧ t.inp.Fits t.width ∧ t.resetSeen = (s.inp.rst || s.resetSeen) ∧
    ((s.inp.rst = true ∧ t.rsp = Response.atReset) ∨
     (s.inp.rst = false ∧ s.inp.cmdValid = true ∧
      t.rsp = Instr.response s.width (s.inp.command s.width)) ∨
     (s.inp.rst = false ∧ s.inp.cmdValid = false ∧ t.rsp = { s.rsp with valid := false })) := by
  obtain ⟨-, u, hu, hc⟩ := step_cases h
  obtain ⟨hwidth, hrsp, hseen, hfits, -⟩ := cycle_frame hc
  rw [hwidth] at hfits ⊢
  rw [hrsp, hseen]
  rcases s.edge_cases with ⟨h1, e⟩ | ⟨h1, h2, e⟩ | ⟨h1, h2, e⟩ <;> cases e.symm.trans hu
  · exact ⟨rfl, hfits, by simp [h1], .inl ⟨h1, rfl⟩⟩
  · exact ⟨rfl, hfits, by simp [h1], .inr (.inl ⟨h1, h2, rfl⟩)⟩
  · exact ⟨rfl, hfits, by simp [h1], .inr (.inr ⟨h1, h2, rfl⟩)⟩

theorem step_width (h : step s = .next t) : t.width = s.width := (step_spec h).1

theorem step_resetSeen (h : step s = .next t) : t.resetSeen = (s.inp.rst || s.resetSeen) :=
  (step_spec h).2.2.1

/-- The registers after a step, one case for each kind of edge. -/
theorem step_rsp_cases (h : step s = .next t) :
    (s.inp.rst = true ∧ t.rsp = Response.atReset) ∨
    (s.inp.rst = false ∧ s.inp.cmdValid = true ∧
      t.rsp = Instr.response s.width (s.inp.command s.width)) ∨
    (s.inp.rst = false ∧ s.inp.cmdValid = false ∧ t.rsp = { s.rsp with valid := false }) :=
  (step_spec h).2.2.2

/-- A step keeps the registers within their widths (R20). -/
theorem step_rsp_fits (h : step s = .next t) (hs : s.rsp.Fits s.width) : t.rsp.Fits t.width := by
  rw [step_width h]
  rcases step_rsp_cases h with ⟨-, e⟩ | ⟨-, -, e⟩ | ⟨-, -, e⟩ <;> rw [e]
  · exact Response.atReset_fits _
  · exact Instr.response_fits _ _
  · exact hs

/-- The registers obey R32 after a step that resets them, and after any step from registers that do. -/
theorem step_rsp_lawful (h : step s = .next t) (hs : s.inp.rst = false → s.rsp.Lawful s.width) :
    t.rsp.Lawful t.width := by
  rw [step_width h]
  rcases step_rsp_cases h with ⟨-, e⟩ | ⟨-, -, e⟩ | ⟨h1, -, e⟩ <;> rw [e]
  · exact Response.atReset_lawful _
  · exact Instr.response_lawful _ _
  · exact hs h1

/-- A reset edge completes from every state the model does not fault (R127): the registers it leaves
can be read, so the host can move on. -/
theorem step_completes_of_rst (hr : s.holdsReservedCode = false) (h : s.inp.rst = true) :
    ∃ t, step s = .next t := by
  obtain ⟨t, ht⟩ := cycle_completes s.applyReset rfl rfl
  exact ⟨t, by simp [step, hr, State.edge, h, andThen, ht]⟩

/-- A run of one more step is a step and then the rest of the run. -/
theorem run_succ (n : Nat) (s : State) :
    Host.Core.run core (n + 1) s = andThen (step s) (Host.Core.run core n) := by
  simp only [Host.Core.run]
  change _ = andThen (core.step s) _
  cases core.step s <;> rfl

/-- A property that every step keeps holds after any number of steps. -/
theorem run_keeps {P : State → Prop} (hP : ∀ s t, step s = .next t → P s → P t) (n : Nat)
    (hs : P s) (h : Host.Core.run core n s = .next t) : P t := by
  induction n generalizing s with
  | zero => cases h; exact hs
  | succ n ih =>
    obtain ⟨u, hu, ht⟩ := andThen_next (run_succ n s ▸ h)
    exact ih (hP s u hu hs) ht

end

/-! The ports an edge does not read. -/

/-- Sampling does not look at the ports. -/
theorem State.sample_withInp (s : State) (p : Inputs) :
    ({ s with inp := p } : State).sample = { s.sample with inp := p } := by
  unfold State.sample
  cases s.resetSeen && s.rsp.valid <;> rfl

/-- The host's cycle does not look at the ports as they are. -/
theorem State.cycle_withInp (s : State) (p : Inputs) :
    ({ s with inp := p } : State).cycle = s.cycle := by
  rw [State.cycle, State.sample_withInp, State.presentNext_inp, State.cycle]

/-- Ports under which the edge does the same to everything else give the same step. -/
theorem step_withInp_of_edge {s u : State} {p : Inputs} (hs : s.edge = .next u)
    (hp : ({ s with inp := p } : State).edge = .next { u with inp := p }) :
    step { s with inp := p } = step s := by
  have hr : ({ s with inp := p } : State).holdsReservedCode = s.holdsReservedCode := rfl
  rw [step, step, hs, hp, hr, andThen, andThen, State.cycle_withInp]

/-- At a reset edge no other port is read (R128). -/
theorem step_withInp_of_rst {s : State} {p : Inputs} (hs : s.inp.rst = true) (hp : p.rst = true) :
    step { s with inp := p } = step s :=
  step_withInp_of_edge (u := s.applyReset) (by simp [State.edge, hs])
    (by simp [State.edge, hp, State.applyReset])

/-- At an idle edge no operand port is read (R126). -/
theorem step_withInp_of_idle {s : State} {p : Inputs} (hs : s.inp.rst = false) (hp : p.rst = false)
    (hsv : s.inp.cmdValid = false) (hpv : p.cmdValid = false) :
    step { s with inp := p } = step s :=
  step_withInp_of_edge (u := s.applyIdle) (by simp [State.edge, hs, hsv])
    (by simp [State.edge, hp, hpv, State.applyIdle])

/-- At a command edge nothing is read of the ports but the command on them (R51). -/
theorem step_withInp_of_command {s : State} {p : Inputs} {i : Instr} (hs : s.Presents i)
    (hp : ({ s with inp := p } : State).Presents i) : step { s with inp := p } = step s := by
  obtain ⟨hrst, hvalid, hi⟩ := hs
  obtain ⟨hrst', hvalid', hi'⟩ := hp
  simp only at hrst' hvalid' hi'
  exact step_withInp_of_edge (u := s.respond (Instr.response s.width i))
    (by simp [State.edge, hrst, hvalid, hi, exec_eq_respond])
    (by simp [State.edge, hrst', hvalid', hi', exec_eq_respond, State.respond])

/-- Ports that agree on the operation and on the fields it reads carry the same command (R54). -/
theorem Inputs.command_congr (w : Width) {p q : Inputs} (hop : p.cmdOp = q.cmdOp)
    (hdata : q.cmdOp = 0#2 → p.cmdData = q.cmdData)
    (hcw : q.cmdOp = 1#2 ∨ q.cmdOp = 2#2 → p.cmdCw = q.cmdCw)
    (hpos : q.cmdOp = 2#2 → p.cmdPos = q.cmdPos) : p.command w = q.command w := by
  simp only [Inputs.command, decodeFields, hop]
  split_ifs with h0 h1 h2
  · rw [hdata h0]
  · rw [hcw (.inl h1)]
  · rw [hcw (.inr h2), hpos h2]
  · rfl

end Sys2Proof.Machine
end

section
/-! PROOFS. The statements on the response registers and on one step (10_state.md). -/

namespace Sys2Proof.Machine

/-- Settles O19: the host drives fitting ports, each edge writes fitting registers, and once a reset is
seen each edge writes lawful ones. -/
theorem stepKeepsTheInvariant : Obligations.StepKeepsTheInvariant := by
  rintro s t ⟨⟨-, hfits⟩, hlaw⟩ h
  refine ⟨⟨(step_spec h).2.1, step_rsp_fits h hfits⟩, fun hseen => ?_⟩
  refine step_rsp_lawful h fun hrst => hlaw ?_
  simpa [step_resetSeen h, hrst] using hseen

/-- Settles O10: a reset edge, a command edge and an idle edge each read only the ports that agree. -/
theorem unreadPortsNeverMatter : Obligations.UnreadPortsNeverMatter := by
  intro s p hrst hvalid hcmd
  cases h : s.inp.rst with
  | true => exact step_withInp_of_rst h (hrst.trans h)
  | false =>
    cases hv : s.inp.cmdValid with
    | false => exact step_withInp_of_idle h (hrst.trans h) hv ((hvalid h).trans hv)
    | true =>
      obtain ⟨hop, hdata, hcw, hpos⟩ := hcmd h hv
      exact step_withInp_of_command ⟨h, hv, rfl⟩
        ⟨hrst.trans h, (hvalid h).trans hv, Inputs.command_congr _ hop hdata hcw hpos⟩

/-- Settles O11: the registers after a reset edge can be read, so the host's cycle completes. -/
theorem resetEdgeClearsTheRegisters : Obligations.ResetEdgeClearsTheRegisters := by
  intro s hr hrst
  refine ⟨?_, fun p hp => step_withInp_of_rst hrst hp⟩
  obtain ⟨t, h⟩ := step_completes_of_rst hr hrst
  have hrsp : t.rsp = Response.atReset := by simpa [hrst] using step_rsp_cases h
  exact ⟨t, h, hrsp, by simp [step_resetSeen h, hrst], step_width h⟩

/-- Settles O13, by the three kinds of edge. -/
theorem validFollowsCmdValid : Obligations.ValidFollowsCmdValid := by
  intro s t h
  rcases step_rsp_cases h with ⟨h1, e⟩ | ⟨h1, h2, e⟩ | ⟨h1, h2, e⟩
  · simp [h1, e, Response.atReset]
  · simp [h1, h2, e, (Instr.response_valid _ _).1]
  · simp [h1, h2, e]

/-- Settles O16: reads and drives by the two laws of `readResponse`, the mark by `step_resetSeen`. -/
theorem unresetRegistersAreUnreadable : Obligations.UnresetRegistersAreUnreadable := by
  refine ⟨fun _ _ => rfl, fun s => s.readResponse_unreset,
    fun s ⟨hseen, hr⟩ => s.readResponse_ok hseen hr, fun s d hs hd => ?_, fun s t hs h => ?_⟩
  · simp [State.drive, hd, State.cwOfSource, State.readResponse_unreset s hs]
  · simp [step_resetSeen h, hs]

/-- Settles O21: the first edge writes the reset values, and every later one keeps the laws. -/
theorem lawsAfterAnyEdgesFromReset : Obligations.LawsAfterAnyEdgesFromReset := by
  intro s t n hrst h
  obtain ⟨u, hu, ht⟩ := andThen_next (run_succ n s ▸ h)
  have hlaw : u.rsp.Lawful u.width := step_rsp_lawful hu (by simp [hrst])
  exact run_keeps (P := fun s => s.rsp.Lawful s.width)
    (fun _ _ hst hs => step_rsp_lawful hst fun _ => hs) n hlaw ht

/-- Settles O6: every command writes one response, a function of the width and the command. -/
theorem everyCommandWritesOnlyTheResponse : Obligations.EveryCommandWritesOnlyTheResponse := by
  intro i s
  obtain ⟨hvalid, hop⟩ := Instr.response_valid s.width i
  refine ⟨⟨_, exec_eq_respond i s, hvalid, hop⟩, fun r' => ?_⟩
  rw [exec_eq_respond, exec_eq_respond]
  rfl

/-- Settles O7: the next state is the old one with a response written, and `respond` has this frame. -/
theorem commandFrame : Obligations.CommandFrame := by
  intro i s t h
  cases (exec_eq_respond i s).symm.trans h
  simp

/-- Settles O9: the response is that of the command in the common width. -/
theorem responseDependsOnlyOnTheCommand : Obligations.ResponseDependsOnlyOnTheCommand := by
  intro i s s' hw
  exact ⟨Instr.response s.width i, exec_eq_respond i s, by rw [hw]; exact exec_eq_respond i s'⟩

/-- Settles O14, a part of what every step does. -/
theorem stepKeepsTheWidth : Obligations.StepKeepsTheWidth := fun _ _ => step_width

/-- Settles O20: idle ports and reset registers fit every width, and reset registers are lawful. -/
theorem resetMeetsTheInvariant : Obligations.ResetMeetsTheInvariant := by
  refine ⟨fun w => ⟨⟨⟨?_, ?_⟩, fun _ => ?_⟩, rfl, rfl⟩, rfl⟩
  · exact Inputs.idle_fits w
  · exact Response.atReset_fits w
  · exact Response.atReset_lawful w

end Sys2Proof.Machine
end

section
/-! PROOFS. The statement that stands in for memory access: reads and drives write no register
(20_memory.md). -/

namespace Sys2Proof.Machine

/-- Settles O15: the frame of the host's cycle, without its clause on the widths of the ports. -/
theorem hostCycleKeepsTheRegisters : Obligations.HostCycleKeepsTheRegisters := by
  intro s t h
  obtain ⟨hwidth, hrsp, hseen, -, hrecord⟩ := cycle_frame h
  exact ⟨hrsp, hwidth, hseen, hrecord⟩

end Sys2Proof.Machine
end

section
/-! SUPPORT. The packed word field by field (R52): the four fields stand side by side, so that packing
and unpacking are inverse to each other. -/

namespace Sys2Proof

/-- Each field lies within the width of its port (R19). -/
def Fields.Fits (w : Width) (f : Fields) : Prop :=
  f.data.toNat < 2 ^ w.k ∧ f.cw.toNat < 2 ^ w.n ∧ f.pos.toNat < 2 ^ w.m

end Sys2Proof

namespace Sys2Proof.Machine

/-- Bit `i` of a field cut from a command word (R52). -/
theorem getLsbD_field {n : Nat} (c : CmdWord) (start len i : Nat) :
    ((c.extractLsb' start len).setWidth n).getLsbD i =
      (decide (i < n) && (decide (i < len) && c.getLsbD (start + i))) := by
  rw [BitVec.getLsbD_setWidth, BitVec.getLsbD_extractLsb']

section
variable {w : Width} {f : Fields}

theorem unpack_pack_op : (unpack w (pack w f)).op = f.op := extractLsb'_pack_op w f

theorem unpack_pack_data (h : f.Fits w) : (unpack w (pack w f)).data = f.data := by
  obtain ⟨hdata, -, -⟩ := h
  have hk := w.k_le
  apply BitVec.eq_of_getLsbD_eq
  intro i hi
  simp only [unpack, getLsbD_field, hi, decide_true, Bool.true_and]
  by_cases hik : i < w.k
  · have h1 : ¬ w.k + 2 ≤ 2 + i := by omega
    have h2 : ¬ w.k + w.n + 2 ≤ 2 + i := by omega
    rw [getLsbD_pack w f (by omega), BitVec.getLsbD_of_ge f.op _ (by omega)]
    simp [hik, h1, h2]
  · simp [hik, getLsbD_of_lt hdata (by omega : w.k ≤ i)]

theorem unpack_pack_cw (h : f.Fits w) : (unpack w (pack w f)).cw = f.cw := by
  obtain ⟨hdata, hcw, -⟩ := h
  have hk := w.k_le
  have hn := w.n_le
  apply BitVec.eq_of_getLsbD_eq
  intro i hi
  simp only [unpack, getLsbD_field, hi, decide_true, Bool.true_and]
  by_cases hin : i < w.n
  · have h2 : ¬ w.k + w.n + 2 ≤ w.k + 2 + i := by omega
    rw [getLsbD_pack w f (by omega), BitVec.getLsbD_of_ge f.op _ (by omega),
      getLsbD_of_lt hdata (by omega)]
    simp [hin, h2]
  · simp [hin, getLsbD_of_lt hcw (by omega : w.n ≤ i)]

theorem unpack_pack_pos (h : f.Fits w) : (unpack w (pack w f)).pos = f.pos := by
  obtain ⟨hdata, hcw, hpos⟩ := h
  have hk := w.k_le
  have hn := w.n_le
  have hm := w.m_le
  apply BitVec.eq_of_getLsbD_eq
  intro i hi
  simp only [unpack, getLsbD_field, hi, decide_true, Bool.true_and]
  by_cases him : i < w.m
  · rw [getLsbD_pack w f (by omega), BitVec.getLsbD_of_ge f.op _ (by omega),
      getLsbD_of_lt hdata (by omega), getLsbD_of_lt hcw (by omega)]
    simp [him]
  · simp [him, getLsbD_of_lt hpos (by omega : w.m ≤ i)]

/-- Fields that fit are those of their packed word (R52). -/
theorem unpack_pack (h : f.Fits w) : unpack w (pack w f) = f := by
  have hlow := congrArg₂ Fields.mk (unpack_pack_op (w := w) (f := f)) (unpack_pack_data h)
  exact congr (congr hlow (unpack_pack_cw h)) (unpack_pack_pos h)

/-- The packed word of fields that fit has at most `W` bits (R52). -/
theorem pack_lt (h : f.Fits w) : (pack w f).toNat < 2 ^ w.cmdBits := by
  obtain ⟨hdata, hcw, hpos⟩ := h
  apply lt_of_high_bits_false
  intro i hi
  rw [Width.cmdBits] at hi
  by_cases h78 : i < 78
  · rw [getLsbD_pack w f h78, BitVec.getLsbD_of_ge f.op _ (by omega), getLsbD_of_lt hdata (by omega),
      getLsbD_of_lt hcw (by omega), getLsbD_of_lt hpos (by omega)]
    simp
  · exact BitVec.getLsbD_of_ge _ _ (by omega)

end

/-- A word of at most `W` bits is the packed word of its fields (R52): each of its bits stands in one
field, and above `W` it has none. -/
theorem pack_unpack {w : Width} {c : CmdWord} (h : c.toNat < 2 ^ w.cmdBits) :
    pack w (unpack w c) = c := by
  have hhigh (i : Nat) (hi : 2 + w.k + w.n + w.m ≤ i) : c.getLsbD i = false := getLsbD_of_lt h hi
  have hk := w.k_le
  have hn := w.n_le
  have hm := w.m_le
  apply BitVec.eq_of_getLsbD_eq
  intro i hi
  rw [getLsbD_pack _ _ hi]
  simp only [unpack, getLsbD_field, BitVec.getLsbD_extractLsb']
  obtain hop | hdata | hcw | hpos | habove :
      i < 2 ∨ (2 ≤ i ∧ i < w.k + 2) ∨ (w.k + 2 ≤ i ∧ i < w.k + w.n + 2) ∨
        (w.k + w.n + 2 ≤ i ∧ i < 2 + w.k + w.n + w.m) ∨ 2 + w.k + w.n + w.m ≤ i := by omega
  · grind
  · grind
  · grind
  · grind
  · rw [hhigh i habove]
    grind

end Sys2Proof.Machine
end

section
/-! PROOFS. The statements on the packed command word (R52 to R55). -/

namespace Sys2Proof.Machine

/-- The decoder on a word of at most `W` bits reads the command of the word's fields (R53). -/
theorem decode_of_lt {w : Width} {c : CmdWord} (h : c.toNat < 2 ^ w.cmdBits) :
    decode w c = .ok (decodeFields w (unpack w c)) := if_pos h

/-- The decoder answers the command of the word's fields or refuses the word. -/
theorem decode_ok {w : Width} {c : CmdWord} {i : Instr} (h : decode w c = .ok i) :
    i = decodeFields w (unpack w c) := by
  unfold decode at h
  split at h
  · exact (Except.ok.inj h).symm
  · cases h

/-- The fields of a command that fits are within the widths of the ports (R19, R54). -/
theorem Instr.fields_fits {w : Width} {i : Instr} (h : WellFormed w i = true) : i.fields.Fits w := by
  have hk : 0 < 2 ^ w.k := Nat.two_pow_pos _
  have hn : 0 < 2 ^ w.n := Nat.two_pow_pos _
  have hm : 0 < 2 ^ w.m := Nat.two_pow_pos _
  cases i with
  | encode d => exact ⟨of_decide_eq_true h, hn, hm⟩
  | decode c => exact ⟨hk, of_decide_eq_true h, hm⟩
  | flip c p =>
    obtain ⟨hc, hp⟩ : c.toNat < 2 ^ w.n ∧ p.toNat < 2 ^ w.m := by simpa [WellFormed] using h
    exact ⟨hk, hc, hp⟩
  | illegalOp => exact ⟨hk, hn, hm⟩

/-- The fields of a command that fits select that command (R53, R54). -/
theorem decodeFields_fields {w : Width} {i : Instr} (h : WellFormed w i = true) :
    decodeFields w i.fields = i := by
  obtain ⟨hdata, hcw, hpos⟩ := Instr.fields_fits h
  cases i with
  | encode d => exact congrArg Instr.encode (lowBits_of_lt hdata)
  | decode c => exact congrArg Instr.decode (lowBits_of_lt hcw)
  | flip c p => exact congrArg₂ Instr.flip (lowBits_of_lt hcw) (lowBits_of_lt hpos)
  | illegalOp => rfl

/-- Settles O2: the packed word of the command's fields unpacks to them, and they select the command. -/
theorem decodeOfEncodeIsIdentity : Obligations.DecodeOfEncodeIsIdentity := by
  intro w i h
  have hfits := Instr.fields_fits h
  refine ⟨?_, pack_lt hfits⟩
  rw [encode, decode_of_lt (pack_lt hfits), unpack_pack hfits, decodeFields_fields h]

/-- Settles O1: the decoder reads the fields, `op` selects, and a cut field passes the wires of its
port. -/
theorem wordSelectsItsOperation : Obligations.WordSelectsItsOperation := by
  intro w
  refine ⟨fun c hc => ?_, fun c i hi => ?_, fun v hv => if_neg (Nat.not_lt.mpr hv)⟩
  · rw [decode_of_lt hc]
    refine ⟨fun h => ?_, fun h => ?_, fun h => ?_, fun h => ?_⟩ <;>
      simp [decodeFields, unpack, h, Width.dataWires, Width.cwWires, Width.posWires, lowBits_field]
  · rw [decode_ok hi]
    exact wellFormed_decodeFields w _

/-- Settles O3, by the two inverse laws of `pack` and `unpack`. -/
theorem packedWordIsItsFields : Obligations.PackedWordIsItsFields := by
  refine ⟨⟨Width.cmdBits_k8, Width.cmdBits_k16, Width.cmdBits_k32⟩, fun w => ?_⟩
  exact ⟨rfl, fun _ => rfl, fun _ => pack_unpack,
    fun f hdata hcw hpos => unpack_pack ⟨hdata, hcw, hpos⟩⟩

/-- Settles O4, by running the decoder on the six words. -/
theorem specWordsDecode : Obligations.SpecWordsDecode := by
  unfold Obligations.SpecWordsDecode
  decide

/-- Settles O17: a step starts from no reserved code once a reset is seen, and each kind of edge writes
a lawful code or holds the one that was there. -/
theorem reservedCodeIsAFault : Obligations.ReservedCodeIsAFault := by
  refine ⟨fun s hseen hcode => ?_, fun s t h hseen => ?_⟩
  · have hr : s.holdsReservedCode = true := by
      rcases hcode with h | h <;> simp [State.holdsReservedCode, reservedResponseCode, hseen, h]
    rw [step, if_pos hr]
  · rcases step_rsp_cases h with ⟨-, e⟩ | ⟨-, -, e⟩ | ⟨hrst, -, e⟩ <;> rw [e]
    · exact (Response.atReset_lawful s.width).1
    · exact (Instr.response_lawful _ _).1
    · have hs : s.resetSeen = true := by simpa [hrst] using hseen
      have hr : s.holdsReservedCode = false := (step_cases h).1
      simpa [State.holdsReservedCode, reservedResponseCode, hs] using hr

end Sys2Proof.Machine
end

section
/-! SUPPORT. The host layer's conversions in both directions (R60 to R65): each answers exactly one of
its errors or the vector, and a vector returns to the host as the operand it came from. -/

namespace Sys2Proof.Machine

section
variable {n len : Nat} {s : List Char}

theorem hostToVector_of_length_ne (h : s.length ≠ len) :
    hostToVector n s len = .error .lengthMismatch := if_pos h

theorem hostToVector_of_bad_symbol (hlen : s.length = len) (h : ∃ c ∈ s, c ≠ '0' ∧ c ≠ '1') :
    hostToVector n s len = .error .invalidSymbol := by
  have hany : s.any (fun c => !(c == '0' || c == '1')) = true := by simpa using h
  rw [hostToVector, if_neg (not_not.mpr hlen), if_pos hany]

theorem hostToVector_of_bits (hlen : s.length = len) (h : ∀ c ∈ s, c = '0' ∨ c = '1') :
    hostToVector n s len = .ok (vectorOfChars n s) := by
  have hany : ¬ s.any (fun c => !(c == '0' || c == '1')) = true := by
    simpa [← or_iff_not_imp_left] using h
  rw [hostToVector, if_neg (not_not.mpr hlen), if_neg hany]

/-- A string that converts has the length and the symbols that the host layer checks (R61). -/
theorem hostToVector_ok {v : BitVec n} (h : hostToVector n s len = .ok v) :
    s.length = len ∧ (∀ c ∈ s, c = '0' ∨ c = '1') ∧ v = vectorOfChars n s := by
  by_cases hlen : s.length = len
  · by_cases hbad : ∃ c ∈ s, c ≠ '0' ∧ c ≠ '1'
    · rw [hostToVector_of_bad_symbol hlen hbad] at h
      cases h
    · have hbits : ∀ c ∈ s, c = '0' ∨ c = '1' := by
        simpa [← or_iff_not_imp_left] using hbad
      rw [hostToVector_of_bits hlen hbits] at h
      exact ⟨hlen, hbits, (Except.ok.inj h).symm⟩
  · rw [hostToVector_of_length_ne hlen] at h
    cases h

/-- Bit number `i` of the vector of a string is its `i`-th character from the left (R60). -/
theorem bitAt_vectorOfChars {i : Nat} (h1 : 1 ≤ i) (hn : i ≤ n) :
    bitAt (vectorOfChars n s) i = true ↔ s[i - 1]? = some '1' := by
  rw [bitAt, getLsbD_vectorOfChars s (by omega), beq_iff_eq]

@[simp] theorem length_charsOfVector (v : BitVec n) : (charsOfVector v len).length = len := by
  simp [charsOfVector]

theorem getElem?_charsOfVector (v : BitVec n) {t : Nat} (h : t < len) :
    (charsOfVector v len)[t]? = some (if v.getLsbD t = true then '1' else '0') := by
  simp [charsOfVector, h]

/-- The string of a vector whose bits all lie in the string converts back to the vector (R63). -/
theorem hostToVector_charsOfVector {v : BitVec n} (h : v.toNat < 2 ^ len) :
    hostToVector n (charsOfVector v len) len = .ok v := by
  have hbits : ∀ c ∈ charsOfVector v len, c = '0' ∨ c = '1' := by
    simp only [charsOfVector, List.mem_map]
    rintro c ⟨t, -, rfl⟩
    split <;> simp
  rw [hostToVector_of_bits (length_charsOfVector v) hbits]
  congr 1
  apply BitVec.eq_of_getLsbD_eq
  intro i hi
  rw [getLsbD_vectorOfChars _ hi]
  by_cases hlen : i < len
  · rw [getElem?_charsOfVector v hlen]
    cases v.getLsbD i <;> rfl
  · rw [getLsbD_of_lt h (by omega), List.getElem?_eq_none (by simpa using hlen)]
    rfl

/-- A string that converts to a vector of its length or more is the string of that vector (R63). -/
theorem charsOfVector_of_hostToVector {v : BitVec n} (hn : len ≤ n)
    (h : hostToVector n s len = .ok v) : charsOfVector v len = s := by
  obtain ⟨rfl, hbits, rfl⟩ := hostToVector_ok h
  apply List.ext_getElem?
  intro t
  by_cases ht : t < s.length
  · rw [getElem?_charsOfVector _ ht, getLsbD_vectorOfChars s (by omega), List.getElem?_eq_getElem ht]
    rcases hbits _ (List.getElem_mem ht) with hc | hc <;> rw [hc] <;> rfl
  · rw [List.getElem?_eq_none (by simpa using ht), List.getElem?_eq_none (by simpa using ht)]

/-- The vector of a string that converts fits the port of that length (R60). -/
theorem lt_of_hostToVector {v : BitVec n} (h : hostToVector n s len = .ok v) : v.toNat < 2 ^ len := by
  obtain ⟨rfl, -, rfl⟩ := hostToVector_ok h
  exact vectorOfChars_lt n s

end

/-- The vector of a value that the port can carry holds that value (R65). -/
theorem toNat_ofNat_of_lt {n len v : Nat} (hn : len ≤ n) (h : v < 2 ^ len) :
    (BitVec.ofNat n v).toNat = v :=
  (BitVec.toNat_ofNat v n).trans
    (Nat.mod_eq_of_lt (h.trans_le (Nat.pow_le_pow_right (by omega) hn)))

theorem hexToVector_of_lt {n len v : Nat} (h : v < 2 ^ len) :
    hexToVector n v len = .ok (BitVec.ofNat n v) := if_pos h

theorem hexToVector_of_ge {n len v : Nat} (h : 2 ^ len ≤ v) :
    hexToVector n v len = .error .lengthMismatch := if_neg (Nat.not_lt.mpr h)

/-- The vector of a hexadecimal operand fits the port (R65). -/
theorem lt_of_hexToVector {n len v : Nat} {x : BitVec n} (h : hexToVector n v len = .ok x) :
    x.toNat < 2 ^ len := by
  rcases Nat.lt_or_ge v (2 ^ len) with hv | hv
  · rw [hexToVector_of_lt hv] at h
    cases h
    exact lt_of_le_of_lt (Nat.mod_le _ _) hv
  · rw [hexToVector_of_ge hv] at h
    cases h

section
variable {w : Width}

/-- A data operand that converts fits the data port (R61, R65). -/
theorem DataOperand.toVector_lt {o : DataOperand} {d : DataWord} (h : o.toVector w = .ok d) :
    d.toNat < 2 ^ w.k := by
  cases o with
  | bits s => exact lt_of_hostToVector h
  | hex v => exact lt_of_hexToVector h

theorem value_of_map_ok {r : Except HostError CodeWord} {src : CwSource}
    (h : r.map .value = .ok src) : ∃ c, r = .ok c ∧ src = .value c := by
  cases r with
  | ok c => exact ⟨c, rfl, (Except.ok.inj h).symm⟩
  | error e => cases h

/-- A codeword operand that converts is the word `rsp_cw` or a value that fits the codeword port (R61,
R65). -/
theorem CwOperand.toSource_ok {o : CwOperand} {src : CwSource} (h : o.toSource w = .ok src) :
    src = .rspCw ∨ ∃ c, src = .value c ∧ c.toNat < 2 ^ w.n := by
  cases o with
  | bits s =>
    obtain ⟨c, hc, rfl⟩ := value_of_map_ok h
    exact .inr ⟨c, rfl, lt_of_hostToVector hc⟩
  | hex v =>
    obtain ⟨c, hc, rfl⟩ := value_of_map_ok h
    exact .inr ⟨c, rfl, lt_of_hexToVector hc⟩
  | rspCw => exact .inl (Except.ok.inj h).symm

/-- The host layer takes a position exactly when it is the value of a vector of `M` bits, and drives
that vector (R62). -/
theorem positionOperand_ok_iff {q : Int} {p : PosWord} :
    positionOperand w q = .ok p ↔ (p.toNat : Int) = q ∧ p.toNat < 2 ^ w.m := by
  have hm : 2 ^ w.m ≤ 2 ^ 6 := Nat.pow_le_pow_right (by omega) w.m_le
  have hcast : ((2 ^ w.m : Nat) : Int) = 2 ^ w.m := by norm_cast
  unfold positionOperand
  split
  · simp only [reduceCtorEq, false_iff]
    omega
  · have hvalue : (BitVec.ofInt 6 q).toNat = q.toNat := by
      rw [BitVec.toNat_ofInt]
      omega
    rw [Except.ok.injEq, ← BitVec.toNat_inj, hvalue]
    omega

theorem positionOperand_of_outside {q : Int} (h : q < 0 ∨ q > 2 ^ w.m - 1) :
    positionOperand w q = .error .positionOutOfRange := if_pos h

/-- FLIP at a position that the port carries and that lies outside `[1, N]` is refused by the block (R62,
R99). -/
theorem exec_flip_of_outside {s : State} {p : PosWord} (c : CodeWord)
    (hp : p.toNat < 2 ^ s.width.m) (h : p.toNat < 1 ∨ s.width.n < p.toNat) :
    exec (.flip c p) s = .next (s.raiseError 2#2 errPositionOutOfRange) := by
  have hwires : s.width.posWires p = p := lowBits_of_lt hp
  have hrange : ¬ positionInRange s.width p.toNat = true := by
    simp only [positionInRange, Bool.and_eq_true, decide_eq_true_eq]
    omega
  simp only [exec, execFlip, hwires, if_neg hrange]

end

end Sys2Proof.Machine
end

section
/-! PROOFS. The statements on the host layer's conversions (R60 to R65). -/

namespace Sys2Proof.Machine

/-- Settles O47: the three outcomes of `hostToVector`, at the widths of the data and codeword ports. -/
theorem bitStringConversion : Obligations.BitStringConversion := by
  intro w s
  refine ⟨hostToVector_of_length_ne, hostToVector_of_bad_symbol, fun hlen hbits => ?_, fun hlen => ?_,
    fun hlen hbad => ?_, fun hlen hbits => ?_, fun e he => ?_,
    fun e he => ⟨?_, fun q => ?_, fun qs => ?_⟩⟩
  · refine ⟨_, hostToVector_of_bits hlen hbits, hlen ▸ vectorOfChars_lt 32 s, fun j h1 hj => ?_⟩
    exact bitAt_vectorOfChars h1 (hj.trans w.k_le)
  · simp [CwOperand.toSource, hostToVector_of_length_ne hlen, Except.map]
  · simp [CwOperand.toSource, hostToVector_of_bad_symbol hlen hbad, Except.map]
  · refine ⟨vectorOfChars 38 s, ?_, hlen ▸ vectorOfChars_lt 38 s, fun i h1 hi => ?_⟩
    · simp [CwOperand.toSource, hostToVector_of_bits hlen hbits, Except.map]
    · exact bitAt_vectorOfChars h1 (hi.trans w.n_le)
  · simp [Stmt.expand, he, Except.map]
  · simp [Stmt.expand, he, Except.map]
  · simp [Stmt.expand, expandFlip, he]
  · simp [Stmt.expand, expandInject, he]

/-- Settles O48, by the two inverse laws of strings and vectors and the law of the position operand. -/
theorem bitStringRoundTrip : Obligations.BitStringRoundTrip := by
  intro w
  refine ⟨fun d => ⟨length_charsOfVector d, fun j h1 hj => getElem?_charsOfVector d (by omega)⟩,
    fun c => ⟨length_charsOfVector c, fun i h1 hi => getElem?_charsOfVector c (by omega)⟩,
    fun p => ⟨rfl, fun hp => positionOperand_ok_iff.mpr ⟨rfl, hp⟩⟩,
    fun q p h => (positionOperand_ok_iff.mp h).1, fun s hw ⟨hseen, hr⟩ => ?_,
    fun d => hostToVector_charsOfVector, fun s d => charsOfVector_of_hostToVector w.k_le,
    fun c => hostToVector_charsOfVector, fun s c => charsOfVector_of_hostToVector w.n_le⟩
  rw [State.readResult, State.readResponse_ok s hseen hr, hw]
  rfl

/-- Settles O49: the host takes exactly the positions that fit the port, and the block refuses those of
them outside `[1, N]`. -/
theorem positionConversion : Obligations.PositionConversion := by
  intro w q
  refine ⟨positionOperand_of_outside, fun h0 hq => ?_⟩
  have hcast : ((2 ^ w.m : Nat) : Int) = 2 ^ w.m := by norm_cast
  have hlt : q.toNat < 2 ^ w.m := by omega
  have htoNat : (BitVec.ofNat 6 q.toNat).toNat = q.toNat := toNat_ofNat_of_lt w.m_le hlt
  have hvalue : ((BitVec.ofNat 6 q.toNat).toNat : Int) = q := by omega
  refine ⟨BitVec.ofNat 6 q.toNat, positionOperand_ok_iff.mpr ⟨hvalue, by omega⟩, hvalue, ?_⟩
  rintro hout s c rfl
  exact exec_flip_of_outside c (by omega) (by omega)

/-- Settles O50, by the two outcomes of `hexToVector`. -/
theorem hexOperands : Obligations.HexOperands := by
  intro w v
  refine ⟨fun h => ⟨hexToVector_of_lt h, toNat_ofNat_of_lt w.k_le h⟩, hexToVector_of_ge,
    fun h => ⟨?_, toNat_ofNat_of_lt w.n_le h⟩, fun h => ?_⟩
  · simp [CwOperand.toSource, hexToVector_of_lt h, Except.map]
  · simp [CwOperand.toSource, hexToVector_of_ge h, Except.map]

/-- Settles O60, by running the assembler on a line of each form. -/
theorem assemblerReadsTheStatementForms : Obligations.AssemblerReadsTheStatementForms := by
  unfold Obligations.AssemblerReadsTheStatementForms
  decide

end Sys2Proof.Machine
end

section
/-! SUPPORT. The host's move (R138): what it drives for the next pending cycle and for each kind of
statement, and a run through the cycles of IDLE. -/

namespace Sys2Proof.Machine

/-- The ports in the cycle `d` when its codeword operand is `c` (R65). -/
def Drive.inputs (d : Drive) (c : CodeWord) : Inputs :=
  ⟨d.rst, d.cmdValid, d.cmdOp, d.cmdData, c, d.cmdPos⟩

section
variable {s : State} {d : Drive} {ds : List Drive} {c : CodeWord} {st : Stmt} {rest : List Stmt}

/-- Operands that fit the ports are driven as they stand (R19). -/
theorem State.drive_of_fits (hc : s.cwOfSource d.cmdCw = .ok c) (hf : (d.inputs c).Fits s.width) :
    s.drive d = .next { s with inp := d.inputs c, driving := true } := by
  obtain ⟨hdata, hcw, hpos⟩ := hf
  have hd : s.width.dataWires d.cmdData = d.cmdData := lowBits_of_lt hdata
  have hw : s.width.cwWires c = c := lowBits_of_lt hcw
  have hq : s.width.posWires d.cmdPos = d.cmdPos := lowBits_of_lt hpos
  rw [State.drive_ok hc, hd, hw, hq]
  rfl

/-- The host drives the first of its pending cycles and keeps the others in order. -/
theorem State.presentNext_pending (hp : s.pending = d :: ds) (hc : s.cwOfSource d.cmdCw = .ok c)
    (hf : (d.inputs c).Fits s.width) :
    s.presentNext = .next { s with pending := ds, inp := d.inputs c, driving := true } := by
  have hc' : ({ s with pending := ds } : State).cwOfSource d.cmdCw = .ok c :=
    (State.cwOfSource_congr rfl rfl _).trans hc
  rw [State.presentNext, hp]
  exact State.drive_of_fits hc' hf

/-- With no pending cycle the host turns to its statements. -/
theorem State.presentNext_program (hp : s.pending = []) :
    s.presentNext = s.nextStatement s.program := by
  rw [State.presentNext, hp]

/-- The host's move with the statements `rest` in place of its own. -/
theorem State.presentNext_withProgram (hp : s.pending = []) :
    State.presentNext { s with program := rest } = s.nextStatement rest :=
  (State.presentNext_program (s := { s with program := rest }) hp).trans
    (State.nextStatement_program rest s rest)

/-- A statement of some cycles: the host drives the first and keeps the others as pending (R64). -/
theorem State.presentNext_statement (hp : s.pending = []) (hprog : s.program = st :: rest)
    (he : st.expand s.width = .ok (d :: ds)) (hc : s.cwOfSource d.cmdCw = .ok c)
    (hf : (d.inputs c).Fits s.width) :
    s.presentNext =
      .next { s with program := rest, pending := ds, inp := d.inputs c, driving := true } := by
  have hc' : ({ s with pending := ds, program := rest } : State).cwOfSource d.cmdCw = .ok c :=
    (State.cwOfSource_congr rfl rfl _).trans hc
  rw [State.presentNext_program hp, hprog, State.nextStatement, he]
  exact State.drive_of_fits hc' hf

/-- A statement of one cycle leaves nothing pending (R64). -/
theorem State.presentNext_single (hp : s.pending = []) (hprog : s.program = st :: rest)
    (he : st.expand s.width = .ok [d]) (hc : s.cwOfSource d.cmdCw = .ok c)
    (hf : (d.inputs c).Fits s.width) :
    s.presentNext = .next { s with program := rest, inp := d.inputs c, driving := true } := by
  rw [State.presentNext_statement hp hprog he hc hf, ← hp]

/-- A refused statement is recorded, and the host's move is that of the statements after it (R61). -/
theorem State.presentNext_refused {e : HostError} (hp : s.pending = [])
    (hprog : s.program = st :: rest) (he : st.expand s.width = .error e) :
    s.presentNext =
      State.presentNext { s with program := rest, record := s.record ++ [.refused e] } := by
  rw [State.presentNext_program hp, hprog, State.nextStatement, he]
  exact (State.presentNext_withProgram (s := s.note (.refused e)) hp).symm

/-- `IDLE 0` drives no cycle and leaves the host's move to the statements after it. -/
theorem State.presentNext_idle_zero (hp : s.pending = []) (hprog : s.program = .idle 0 :: rest) :
    s.presentNext = State.presentNext { s with program := rest } := by
  rw [State.presentNext_program hp, State.presentNext_withProgram hp, hprog]
  rfl

/-- What a codeword operand drives fits the codeword port when the registers fit (R28, R65). -/
theorem State.cwOfSource_lt {o : CwOperand} {src : CwSource} (hs : s.rsp.Fits s.width)
    (ho : o.toSource s.width = .ok src) (hc : s.cwOfSource src = .ok c) :
    c.toNat < 2 ^ s.width.n := by
  obtain rfl | ⟨v, rfl, hv⟩ := CwOperand.toSource_ok ho
  · obtain ⟨-, -, -, hcw⟩ := hs
    unfold State.cwOfSource State.readResponse at hc
    split_ifs at hc
    exact Except.ok.inj hc ▸ hcw
  · exact Except.ok.inj hc ▸ hv

end

/-- The fields of a word are within the widths of the ports (R52). -/
theorem unpack_fits (w : Width) (x : CmdWord) : (unpack w x).Fits w := by
  have hlt {n : Nat} (start len : Nat) : ((x.extractLsb' start len).setWidth n).toNat < 2 ^ len :=
    lowBits_field (n := n) start x ▸ lowBits_lt len _
  exact ⟨hlt _ _, hlt _ _, hlt _ _⟩

/-- The ports carry a cycle of IDLE, and `k` more of them are pending. -/
def State.Idling (s : State) (k : Nat) : Prop :=
  s.Readable ∧ s.inp = Inputs.idle ∧ s.pending = List.replicate k Drive.idle ∧ s.driving = true

section
variable {s : State}

/-- `IDLE t` with `t ≥ 1` drives an idle cycle at once and leaves the others pending (R64). -/
theorem State.presentNext_idle_succ {rest : List Stmt} {k : Nat} (hp : s.pending = [])
    (hprog : s.program = .idle (k + 1) :: rest) :
    s.presentNext = .next { s with
      program := rest, pending := List.replicate k Drive.idle, inp := Inputs.idle, driving := true } :=
  State.presentNext_statement (d := Drive.idle) hp hprog rfl rfl (Inputs.idle_fits s.width)

/-- Loading `IDLE t` puts its first cycle on the ports (R64). -/
theorem State.load_idle (hs : s.Readable) (k : Nat) :
    ∃ s0, s.load [.idle (k + 1)] = .next s0 ∧ s0.Idling k := by
  have hmove := State.presentNext_idle_succ
    (s := { s with pending := [], program := [.idle (k + 1)] }) rfl rfl
  exact ⟨_, hmove, hs, rfl, rfl, rfl⟩

/-- After an idle edge there is no response to sample (R126, R135). -/
theorem State.sample_applyIdle (s : State) : s.applyIdle.sample = s.applyIdle := by
  simp [State.sample]

/-- A step in a cycle of IDLE goes on to the next one. -/
theorem step_idling {k : Nat} (h : s.Idling (k + 1)) : ∃ t, step s = .next t ∧ t.Idling k := by
  obtain ⟨⟨hseen, hr⟩, hinp, hp, -⟩ := h
  have hedge : s.edge = .next s.applyIdle := by simp [State.edge, hinp, Inputs.idle]
  have hmove := State.presentNext_pending (s := s.applyIdle) (c := 0#38) hp rfl
    (Inputs.idle_fits s.width)
  have hstep : step s = s.applyIdle.presentNext := by
    rw [step, hr, if_neg Bool.false_ne_true, hedge, andThen, State.cycle, State.sample_applyIdle]
  exact ⟨_, hstep.trans hmove, ⟨hseen, hr⟩, rfl, rfl, rfl⟩

/-- A run through cycles of IDLE reaches a cycle of IDLE. -/
theorem run_idling (n k : Nat) (h : s.Idling (k + n)) :
    ∃ u, Host.Core.run core n s = .next u ∧ u.Idling k := by
  induction n generalizing s with
  | zero => exact ⟨s, rfl, h⟩
  | succ n ih =>
    obtain ⟨t, ht, hidle⟩ := step_idling h
    obtain ⟨u, hu, hk⟩ := ih hidle
    refine ⟨u, ?_, hk⟩
    rw [run_succ, ht]
    exact hu

end

end Sys2Proof.Machine
end

section
/-! PROOFS. The statements on what the host presents for its statements (R59 to R65). -/

namespace Sys2Proof.Machine

/-- Settles O51: the host's move after a refused statement, also where no statement is left. -/
theorem refusedStatementIssuesNothing : Obligations.RefusedStatementIssuesNothing := by
  intro s st rest e he hp hprog
  have hmove := State.presentNext_refused hp hprog he
  refine ⟨hmove, ?_⟩
  rintro rfl
  exact hmove.trans (State.presentNext_withProgram (s := s.note (.refused e)) hp)

/-- Settles O52: each statement drives one cycle, whose operands fit the ports. -/
theorem statementPresentsItsCommand : Obligations.StatementPresentsItsCommand := by
  rintro s rest ⟨-, hrsp⟩ - hp
  have hk : 0 < 2 ^ s.width.k := Nat.two_pow_pos _
  have hn : 0 < 2 ^ s.width.n := Nat.two_pow_pos _
  have hm : 0 < 2 ^ s.width.m := Nat.two_pow_pos _
  refine ⟨fun o d hprog ho => ?_, fun o src c hprog ho hc => ?_, fun o src c q p hprog ho hc hq => ?_,
    fun v hprog hv => ?_, fun hprog => ?_, fun hprog => ?_⟩
  · have he : (Stmt.encode o).expand s.width = .ok [Drive.encode d] := by
      simp [Stmt.expand, ho, Except.map]
    exact State.presentNext_single hp hprog he rfl ⟨DataOperand.toVector_lt ho, hn, hm⟩
  · have he : (Stmt.decode o).expand s.width = .ok [Drive.decode src] := by
      simp [Stmt.expand, ho, Except.map]
    exact State.presentNext_single hp hprog he hc ⟨hk, State.cwOfSource_lt hrsp ho hc, hm⟩
  · have he : (Stmt.flip o q).expand s.width = .ok [Drive.flip src p] := by
      simp [Stmt.expand, expandFlip, ho, hq, Except.map]
    exact State.presentNext_single hp hprog he hc
      ⟨hk, State.cwOfSource_lt hrsp ho hc, (positionOperand_ok_iff.mp hq).2⟩
  · have he : (Stmt.cmd v).expand s.width = .ok [Drive.ofWord s.width (BitVec.ofNat 78 v)] := by
      simp [Stmt.expand, hexToVector_of_lt hv, Except.map]
    exact ⟨_, State.presentNext_single hp hprog he rfl (unpack_fits _ _), rfl, rfl, rfl, rfl, rfl⟩
  · exact State.presentNext_single (d := Drive.idle) hp hprog rfl rfl (Inputs.idle_fits _)
  · exact State.presentNext_single (d := Drive.reset) hp hprog rfl rfl (Inputs.idle_fits _)

/-- Settles O53, by the host's move for IDLE and for a pending cycle, and the run through the cycles. -/
theorem idleDrivesItsCycles : Obligations.IdleDrivesItsCycles := by
  refine ⟨fun s rest => State.presentNext_idle_zero, fun s rest k => State.presentNext_idle_succ,
    fun s d ds c hp hc hdata hcw hpos => State.presentNext_pending hp hc ⟨hdata, hcw, hpos⟩,
    fun s t n hs hn => ?_⟩
  obtain ⟨k, rfl⟩ : ∃ k, t = k + n + 1 := ⟨t - n - 1, by omega⟩
  obtain ⟨s0, hload, hidle⟩ := State.load_idle hs (k + n)
  obtain ⟨u, hrun, -, hinp, hp, hdriving⟩ := run_idling n k hidle
  exact ⟨s0, u, hload, hrun, hinp, by simp [hp], hdriving⟩

end Sys2Proof.Machine
end

section
/-! SUPPORT. The layout for every width (R67 to R73): what the search for the parity count finds, what a
power of two is, and a position's coverage sets read off its bits. -/

namespace Sys2Proof.Machine

/-- The upward search from `m` ends at the first number that meets the inequality (R67), when one at
its bound does. -/
theorem searchParity_spec (k : Nat) {fuel m : Nat} (h : k + (m + fuel) + 1 ≤ 2 ^ (m + fuel)) :
    k + searchParity k fuel m + 1 ≤ 2 ^ searchParity k fuel m ∧
      ∀ x, m ≤ x → x < searchParity k fuel m → ¬ k + x + 1 ≤ 2 ^ x := by
  induction fuel generalizing m with
  | zero => exact ⟨h, fun x hm hx => absurd hx (Nat.not_lt.mpr hm)⟩
  | succ fuel ih =>
    rw [searchParity]
    split_ifs with hstop
    · exact ⟨hstop, fun x hm hx => absurd hx (Nat.not_lt.mpr hm)⟩
    · obtain ⟨hfound, hbelow⟩ := ih (m := m + 1) (by rwa [Nat.add_right_comm m 1 fuel])
      refine ⟨hfound, fun x hm hx => ?_⟩
      rcases Nat.eq_or_lt_of_le hm with rfl | hlt
      · exact hstop
      · exact hbelow x hlt hx

/-- The bound of the search, `K + 1`, meets the inequality (R67). -/
theorem parity_bound_suffices (k : Nat) : k + (k + 1) + 1 ≤ 2 ^ (k + 1) := by
  have hk : k < 2 ^ k := Nat.lt_two_pow_self
  omega

/-- A data width that is not supported is refused at elaboration (R6, R110). -/
theorem elaborate_of_unsupported {k : Nat} (h8 : k ≠ 8) (h16 : k ≠ 16) (h32 : k ≠ 32) :
    elaborate k = .error .invalidWidth := by
  rw [elaborate, if_neg h8, if_neg h16, if_neg h32]

/-- `isPow2` finds every exponent, because `j < 2 ^ j` (R10). -/
theorem isPow2_eq_true_iff {i : Nat} : isPow2 i = true ↔ ∃ j, i = 2 ^ j := by
  simp only [isPow2, List.any_eq_true, List.mem_range, beq_iff_eq]
  constructor
  · rintro ⟨j, -, h⟩
    exact ⟨j, h.symm⟩
  · rintro ⟨j, rfl⟩
    exact ⟨j, Nat.lt_two_pow_self, rfl⟩

/-- `i & 2^j == 2^j` reads bit `j` of `i` (R72). -/
theorem and_two_pow_eq_iff {i j : Nat} : i &&& 2 ^ j = 2 ^ j ↔ i.testBit j = true := by
  rw [Nat.and_two_pow]
  cases i.testBit j
  · simpa using (Nat.two_pow_pos j).ne
  · simp

/-- A number that is no power of two has a second bit beside its highest one. -/
theorem exists_second_bit {i : Nat} (h : 1 ≤ i) (hp : isPow2 i = false) :
    ∃ j ≠ Nat.log2 i, i.testBit j = true := by
  by_contra! hnone
  have hpow : i = 2 ^ Nat.log2 i := by
    apply Nat.eq_of_testBit_eq
    intro j
    rcases eq_or_ne j (Nat.log2 i) with rfl | hj
    · rw [Nat.testBit_log2 (by omega), Nat.testBit_two_pow_self]
    · rw [Nat.testBit_two_pow_of_ne hj.symm, Bool.eq_false_iff]
      exact hnone j hj
  rw [isPow2_eq_true_iff.mpr ⟨_, hpow⟩] at hp
  cases hp

end Sys2Proof.Machine

namespace Sys2Proof

theorem Width.mem_dataPositions {w : Width} {i : Nat} :
    i ∈ w.dataPositions ↔ 1 ≤ i ∧ i ≤ w.n ∧ Machine.isPow2 i = false := by
  simp [Width.dataPositions, Width.mem_positions, and_assoc]

theorem Width.dataPositions_ascending (w : Width) : w.dataPositions.Pairwise (· < ·) :=
  List.Pairwise.filter _ List.pairwise_lt_range'

theorem Width.length_dataPositions (w : Width) : w.dataPositions.length = w.k := by
  cases w <;> decide

/-- The data positions in ascending order are `DataPos(1)` to `DataPos(K)` (R70). -/
theorem Width.dataPositions_eq_map (w : Width) :
    w.dataPositions = (List.range' 1 w.k).map w.dataPos := by
  apply List.ext_getElem
  · simp [w.length_dataPositions]
  · intro t ht _
    simp [Width.dataPos, ht]

section
variable {w : Width} {i j : Nat}

/-- A position is in the coverage set of `2^j` exactly when its bit `j` is 1 (R72). -/
theorem Width.mem_cov_two_pow (h : i ∈ w.positions) : i ∈ w.cov (2 ^ j) ↔ i.testBit j = true := by
  rw [Width.mem_cov, Machine.and_two_pow_eq_iff, and_iff_right (Width.mem_positions.mp h)]

/-- The bits of a position are those of parity positions, whose coverage sets hold it (R72). -/
theorem Width.covering_parity_of_testBit (h : i ∈ w.positions) (hj : i.testBit j = true) :
    2 ^ j ∈ w.paritySet.filter fun p => decide (i ∈ w.cov p) := by
  have hlt : 2 ^ j < 2 ^ w.m :=
    ((Nat.ge_two_pow_of_testBit hj).trans (Width.mem_positions.mp h).2).trans_lt w.n_lt
  have hjm : j < w.m := (Nat.pow_lt_pow_iff_right (by omega)).mp hlt
  exact List.mem_filter.mpr ⟨Width.mem_paritySet.mpr ⟨j, hjm, rfl⟩,
    decide_eq_true ((Width.mem_cov_two_pow h).mpr hj)⟩

/-- A data position is in at least two coverage sets (R73): those of its highest bit and of a second
one. -/
theorem Width.two_le_covering_parities (h : i ∈ w.positions) (hp : Machine.isPow2 i = false) :
    2 ≤ (w.paritySet.filter fun p => decide (i ∈ w.cov p)).length := by
  obtain ⟨h1, -⟩ := Width.mem_positions.mp h
  have htop : i.testBit (Nat.log2 i) = true := Nat.testBit_log2 (by omega)
  obtain ⟨j, hne, hj⟩ := Machine.exists_second_bit h1 hp
  have hpow : 2 ^ j ≠ 2 ^ Nat.log2 i := (Nat.pow_right_injective le_rfl).ne hne
  have hnodup : [2 ^ j, 2 ^ Nat.log2 i].Nodup := by simpa using hpow
  refine (List.subperm_of_subset hnodup ?_).length_le
  simp only [List.cons_subset, List.nil_subset, and_true]
  exact ⟨Width.covering_parity_of_testBit h hj, Width.covering_parity_of_testBit h htop⟩

end

end Sys2Proof
end

section
/-! PROOFS. The statements on the layout (R67 to R73). -/

namespace Sys2Proof.Machine

/-- Settles O22, by what the upward search from 0 finds below its bound. -/
theorem parityCountIsSmallest : Obligations.ParityCountIsSmallest := by
  refine ⟨fun k => ?_, fun _ => rfl, ⟨Width.m_k8, Width.m_k16, Width.m_k32⟩,
    fun k => elaborate_of_unsupported⟩
  obtain ⟨hfound, hbelow⟩ := searchParity_spec k (fuel := k + 1) (m := 0)
    (by simpa using parity_bound_suffices k)
  exact ⟨hfound, fun m => hbelow m (Nat.zero_le m)⟩

/-- Settles O23: the laws of the position sets, and the spec's tables by computing the sets. -/
theorem positionTables : Obligations.PositionTables := by
  refine ⟨fun i => isPow2_eq_true_iff, ⟨Width.n_k8, Width.n_k16, Width.n_k32⟩, fun w => ?_, ?_⟩
  · refine ⟨rfl, w.n_lt, rfl, fun i h1 hn => ?_, fun i => Width.mem_dataPositions,
      w.dataPositions_eq_map, w.dataPositions_ascending⟩
    exact (Width.isPow2_iff (Width.mem_positions.mpr ⟨h1, hn⟩)).symm
  · decide

/-- Settles O24, by the laws of `DataPos` and `DataIndex` at the positions outside the parity set. -/
theorem dataIndexInvertsDataPos : Obligations.DataIndexInvertsDataPos := by
  refine fun w => ⟨fun j h1 hk => ?_, fun i hi hp => ?_⟩
  · obtain ⟨-, -, hindex⟩ := Width.dataPos_spec (Width.mem_dataBits.mpr ⟨h1, hk⟩)
    exact hindex
  · have hparity : i ∉ w.paritySet := by simp [← Width.isPow2_iff hi, hp]
    obtain ⟨hmem, hpos⟩ := Width.dataIndex_spec hi hparity
    obtain ⟨h1, hk⟩ := Width.mem_dataBits.mp hmem
    exact ⟨h1, hk, hpos, rfl⟩

/-- Settles O25: the spec's tables by computing the coverage sets, and the laws of membership. -/
theorem coverageTables : Obligations.CoverageTables := by
  refine ⟨by decide, by decide, by decide, by decide, by decide, by decide, fun w => ?_⟩
  exact ⟨fun p i => Width.mem_cov.trans and_assoc, fun j _ i => Width.mem_cov_two_pow,
    fun p hp q => Width.mem_cov_parity hp, fun i => Width.two_le_covering_parities⟩

end Sys2Proof.Machine
end

section
/-! SUPPORT. The encoder at every position (R77 to R79), its linearity (R82), and the codewords' zero
syndrome (R81). -/

namespace Sys2Proof.Machine

/-- One member of a set taken out of the parity over it. -/
theorem xorOver_erase {S : List Nat} {p : Nat} (h : p ∈ S) (f : Nat → Bool) :
    xorOver S f = xor (f p) (xorOver (S.erase p) f) :=
  xorOver_perm (List.perm_cons_erase h) f

theorem xorOver_map (S : List Nat) (g : Nat → Nat) (f : Nat → Bool) :
    xorOver (S.map g) f = xorOver S fun i => f (g i) :=
  List.foldr_map

/-- Writes to two different positions commute. -/
theorem putBit_comm {n : Nat} (v : BitVec n) {p q : Nat} (a b : Bool) (hp : 1 ≤ p) (hq : 1 ≤ q)
    (hne : p ≠ q) : putBit (putBit v p a) q b = putBit (putBit v q b) p a := by
  apply BitVec.eq_of_getLsbD_eq
  intro i hi
  by_cases h : i = p - 1
  · have hq : i ≠ q - 1 := by omega
    simp [getLsbD_putBit, hq]
  · simp [getLsbD_putBit, h]

end Sys2Proof.Machine

namespace Sys2Proof

/-- A data position is a codeword position outside the parity set (R69, R70). -/
theorem Width.mem_dataPositions_iff_notMem_paritySet {w : Width} {i : Nat} :
    i ∈ w.dataPositions ↔ i ∈ w.positions ∧ i ∉ w.paritySet := by
  simp only [Width.dataPositions, List.mem_filter, Bool.not_eq_true', Bool.eq_false_iff]
  exact and_congr_right fun h => not_congr (Width.isPow2_iff h)

end Sys2Proof

namespace Sys2Proof.Machine

/-- One turn of the loop of `Encode` (R78). -/
def Codec.parityWrite (w : Width) (c : CodeWord) (p : Nat) : CodeWord :=
  putBit c p (xorOver (w.cov p) (bitAt c))

theorem Codec.encode_eq_foldl_parityWrite (w : Width) (d : DataWord) :
    Codec.encode w d = w.paritySet.foldl (Codec.parityWrite w) (Codec.place w d) := rfl

section
variable {w : Width} {i p : Nat}

/-- `Place` at every position: the data bit of a data position, and 0 elsewhere (R77). -/
theorem Codec.bitAt_place (d : DataWord) (h1 : 1 ≤ i) :
    bitAt (Codec.place w d) i = (decide (i ∈ w.dataPositions) && bitAt d (Width.dataIndex i)) := by
  by_cases h : i ∈ w.dataPositions
  · obtain ⟨hpos, hpar⟩ := Width.mem_dataPositions_iff_notMem_paritySet.mp h
    obtain ⟨hj, hi⟩ := Width.dataIndex_spec hpos hpar
    have hplace := Codec.bitAt_place_dataPos d hj
    rw [hi] at hplace
    simp [hplace, h]
  · have hne : ∀ j ∈ w.dataBits, w.dataPos j ≠ i := by
      rintro j hj rfl
      obtain ⟨hrange, hpar, -⟩ := Width.dataPos_spec hj
      exact h (Width.mem_dataPositions_iff_notMem_paritySet.mpr
        ⟨Width.mem_positions.mpr hrange, hpar⟩)
    simp [Codec.bitAt_place_of_ne d h1 hne, h]

/-- The placed vector has at most `N` bits (R77). -/
theorem Codec.place_lt (w : Width) (d : DataWord) : (Codec.place w d).toNat < 2 ^ w.n :=
  lt_of_high_bits_false _ fun i hi => by
    have hout : i + 1 ∉ w.dataPositions := fun h => by
      have := (Width.mem_dataPositions.mp h).2.1
      omega
    simpa [bitAt, hout] using Codec.bitAt_place (w := w) d (Nat.le_add_left 1 i)

/-- `Encode` at every position (R78). -/
theorem Codec.bitAt_encode (d : DataWord) (h1 : 1 ≤ i) :
    bitAt (Codec.encode w d) i =
      if i ∈ w.paritySet then xorOver (w.cov i) (bitAt (Codec.place w d))
      else bitAt (Codec.place w d) i := by
  split_ifs with h
  · exact Codec.bitAt_encode_parity d h
  · exact Codec.bitAt_encode_of_notMem d h1 h

/-- The sums of two parity positions do not see each other's writes, so the order of the two does not
matter (R78). -/
theorem Codec.parityWrite_comm {q : Nat} (hp : p ∈ w.paritySet) (hq : q ∈ w.paritySet)
    (c : CodeWord) : Codec.parityWrite w (Codec.parityWrite w c p) q =
      Codec.parityWrite w (Codec.parityWrite w c q) p := by
  rcases eq_or_ne p q with rfl | hne
  · rfl
  · simp only [Codec.parityWrite, xorOver_cov_putBit c _ hp hq hne,
      xorOver_cov_putBit c _ hq hp hne.symm]
    exact putBit_comm c _ _ (Width.paritySet_range hp).1 (Width.paritySet_range hq).1 hne

/-- A parity bit of a codeword is the parity of the data bits its set covers (R79). -/
theorem Codec.bitAt_encode_parity_data (d : DataWord) (hp : p ∈ w.paritySet) :
    bitAt (Codec.encode w d) p =
      xorOver ((w.cov p).filter fun i => !isPow2 i) (fun i => bitAt d (Width.dataIndex i)) := by
  rw [Codec.bitAt_encode_parity d hp, xorOver_filter (p := fun i => !isPow2 i)]
  · apply xorOver_congr
    intro i hi
    obtain ⟨hcov, hdata⟩ := List.mem_filter.mp hi
    obtain ⟨⟨h1, hn⟩, -⟩ := Width.mem_cov.mp hcov
    have hmem : i ∈ w.dataPositions := Width.mem_dataPositions.mpr ⟨h1, hn, by simpa using hdata⟩
    simp [Codec.bitAt_place d h1, hmem]
  · intro i hi hpow
    obtain ⟨h, -⟩ := Width.mem_cov.mp hi
    exact Codec.bitAt_place_parity d
      ((Width.isPow2_iff (Width.mem_positions.mpr h)).mp (by simpa using hpow))

/-- A parity bit of a codeword as the parity of the listed data bits its set covers (R72, R79). -/
theorem Codec.bitAt_encode_of_coveredData {l : List Nat} (d : DataWord) (hp : p ∈ w.paritySet)
    (hl : w.coveredData p = l) : bitAt (Codec.encode w d) p = xorOver l (bitAt d) := by
  rw [Codec.bitAt_encode_parity_data d hp, ← hl, Width.coveredData, xorOver_map]

end

/-- `Encode` reads the data bits `1 .. K` only (R80). -/
theorem Codec.encode_congr {w : Width} {a b : DataWord} (h : ∀ j ∈ w.dataBits, bitAt a j = bitAt b j) :
    Codec.encode w a = Codec.encode w b := by
  have hplace : Codec.place w a = Codec.place w b := by
    apply eq_of_bitAt_eq
    intro i h1 _
    rw [Codec.bitAt_place a h1, Codec.bitAt_place b h1]
    by_cases hi : i ∈ w.dataPositions
    · obtain ⟨hpos, hpar⟩ := Width.mem_dataPositions_iff_notMem_paritySet.mp hi
      rw [h _ (Width.dataIndex_spec hpos hpar).1]
    · simp [hi]
  rw [Codec.encode, hplace, ← Codec.encode]

theorem Codec.place_xor (w : Width) (a b : DataWord) :
    Codec.place w (a ^^^ b) = Codec.place w a ^^^ Codec.place w b := by
  apply eq_of_bitAt_eq
  intro i h1 _
  simp only [bitAt_xor, Codec.bitAt_place _ h1, Bool.and_xor_distrib_left]

theorem Codec.encode_xor (w : Width) (a b : DataWord) :
    Codec.encode w (a ^^^ b) = Codec.encode w a ^^^ Codec.encode w b := by
  apply eq_of_bitAt_eq
  intro i h1 _
  simp only [bitAt_xor, Codec.bitAt_encode _ h1, Codec.place_xor]
  split_ifs
  · exact xorOver_bitAt_xor _ _ _
  · rfl

@[simp] theorem Codec.encode_zero (w : Width) : Codec.encode w 0#32 = 0#38 := by
  simpa using Codec.encode_xor w 0#32 0#32

/-- The encoding of a mask is the sum of the unit encodings of its bits (R82). -/
theorem Codec.encode_maskOf (w : Width) (l : List Nat) :
    Codec.encode w (maskOf 32 l) = l.foldl (fun c j => c ^^^ Codec.encode w (unitAt 32 j)) 0#38 := by
  rw [maskOf, ← Codec.encode_zero w]
  exact (List.foldl_hom (Codec.encode w) fun v j => (Codec.encode_xor w v (unitAt 32 j)).symm).symm

section
variable {w : Width}

/-- The parity over a parity position's own coverage set is 0 in a codeword: the parity bit is the
parity of the set's other members, which are data positions (R81). -/
theorem Codec.xorOver_cov_encode (d : DataWord) {p : Nat} (hp : p ∈ w.paritySet) :
    xorOver (w.cov p) (bitAt (Codec.encode w d)) = false := by
  have hmem : p ∈ w.cov p := (Width.mem_cov_parity hp hp).mpr rfl
  have hrest : xorOver ((w.cov p).erase p) (bitAt (Codec.encode w d)) =
      xorOver ((w.cov p).erase p) (bitAt (Codec.place w d)) := by
    apply xorOver_congr
    intro i hi
    obtain ⟨hne, hcov⟩ := (w.nodup_cov p).mem_erase_iff.mp hi
    exact Codec.bitAt_encode_of_notMem d (Width.mem_cov.mp hcov).1.1
      fun hpar => hne ((Width.mem_cov_parity hpar hp).mp hcov)
  rw [xorOver_erase hmem, hrest, Codec.bitAt_encode_parity d hp, xorOver_erase hmem,
    Codec.bitAt_place_parity d hp]
  simp

/-- A codeword has syndrome 0 (R81). -/
theorem Codec.syndrome_encode (w : Width) (d : DataWord) :
    Codec.syndrome w (Codec.encode w d) = 0#6 := by
  apply BitVec.eq_of_getLsbD_eq
  intro j _
  rw [Codec.getLsbD_syndrome]
  by_cases hj : j < w.m
  · simp [Codec.syndromeBit, Codec.xorOver_cov_encode d (Width.mem_paritySet.mpr ⟨j, hj, rfl⟩)]
  · simp [hj]

/-- A codeword holds its data at the data positions (R81). -/
theorem Codec.extract_encode {d : DataWord} (h : d.toNat < 2 ^ w.k) :
    Codec.extract w (Codec.encode w d) = d := by
  apply eq_of_bitAt_eq
  intro j h1 _
  by_cases hj : j ≤ w.k
  · have hmem : j ∈ w.dataBits := Width.mem_dataBits.mpr ⟨h1, hj⟩
    rw [Codec.bitAt_extract _ hmem, Codec.bitAt_encode_dataPos d hmem]
  · rw [Codec.bitAt_extract_of_gt _ (by omega), bitAt, getLsbD_of_lt h (by omega)]

/-- A DECODE of a vector with syndrome 0 reports no error and changes nothing (R90, R91, R95). -/
theorem Codec.decodeResponse_of_syndrome_zero {c : CodeWord} (h : Codec.syndrome w c = 0#6) :
    Codec.decodeResponse w c = ⟨true, 1#2, 0#2, 0#2, 0#6, 0#6, Codec.extract w c, c⟩ := by
  have hclass : classify w 0#6 = .noError := if_pos rfl
  simp [Codec.decodeResponse, Codec.reportedPosition, Codec.correct, statusCode, errNone, h, hclass]

end

end Sys2Proof.Machine
end

section
/-! PROOFS. The statements on the encoder (R77 to R82). -/

namespace Sys2Proof.Machine

/-- Settles O26, by what `Place` puts at each kind of position. -/
theorem placeFillsTheDataPositions : Obligations.PlaceFillsTheDataPositions :=
  fun w d => ⟨fun _ h1 hk => Codec.bitAt_place_dataPos d (Width.mem_dataBits.mpr ⟨h1, hk⟩),
    fun _ => Codec.bitAt_place_parity d, Codec.place_lt w d⟩

/-- Settles O27: the parity writes commute, so the loop gives one result for every order. -/
theorem encodeWritesTheParities : Obligations.EncodeWritesTheParities := by
  refine fun w d => ⟨fun p => Codec.bitAt_encode_parity d, fun i hi => ?_, fun l hl => ?_⟩
  · exact Codec.bitAt_encode_of_notMem d (Width.mem_positions.mp hi).1
  · rw [Codec.encode_eq_foldl_parityWrite]
    exact hl.foldl_eq' (fun p hp q hq =>
      Codec.parityWrite_comm (hl.mem_iff.mp hp) (hl.mem_iff.mp hq)) _

/-- Settles O28: a parity bit is the parity of the covered data bits, and for `K = 8` those and the
data positions are the spec's lists. -/
theorem encodeClosedForm : Obligations.EncodeClosedForm := by
  refine ⟨fun w d => ⟨fun p => Codec.bitAt_encode_parity_data d, fun i hi hdata => ?_⟩,
    fun d => ⟨?_, ?_, ?_, ?_, ?_⟩⟩
  · have hpar : i ∉ w.paritySet := by simp [← Width.isPow2_iff hi, hdata]
    obtain ⟨hj, hpos⟩ := Width.dataIndex_spec hi hpar
    simpa [hpos] using Codec.bitAt_encode_dataPos d hj
  · simpa using Codec.bitAt_encode_of_coveredData (p := 1) (l := [1, 2, 4, 5, 7]) d
      (by decide) (by decide)
  · simpa using Codec.bitAt_encode_of_coveredData (p := 2) (l := [1, 3, 4, 6, 7]) d
      (by decide) (by decide)
  · simpa using Codec.bitAt_encode_of_coveredData (p := 4) (l := [2, 3, 4, 8]) d
      (by decide) (by decide)
  · simpa using Codec.bitAt_encode_of_coveredData (p := 8) (l := [5, 6, 7, 8]) d
      (by decide) (by decide)
  · rw [show [3, 5, 6, 7, 9, 10, 11, 12] = Width.k8.dataBits.map Width.k8.dataPos by decide,
      List.map_map]
    exact List.map_congr_left fun j => Codec.bitAt_encode_dataPos d

/-- Settles O29: the decoder's law, the response of ENCODE on a data word that passes its port, and the
spec's values by computing them. -/
theorem encodeCommand : Obligations.EncodeCommand := by
  refine ⟨fun w c hc hop => ?_, fun d s hd => ?_, Codec.encode_zero, by decide, by decide,
    by decide +kernel, by decide, by decide, by decide⟩
  · obtain ⟨hencode, -⟩ := (wordSelectsItsOperation w).1 c hc
    exact hencode hop
  · rw [exec_eq_respond, Instr.response, Width.dataWires, lowBits_of_lt hd]
    rfl

/-- Settles O30: a codeword passes its port, and its syndrome is 0. -/
theorem roundTrip : Obligations.RoundTrip := by
  intro s d hd
  refine ⟨Codec.syndrome_encode s.width d, Codec.extract_encode hd, ?_⟩
  rw [exec_eq_respond, Instr.response, Width.cwWires, lowBits_of_lt (Codec.encode_lt s.width d),
    Codec.decodeResponse_of_syndrome_zero (Codec.syndrome_encode s.width d), Codec.extract_encode hd]
  rfl

/-- Settles O31: a data word agrees in the data bits with the mask of its set ones, whose encoding is
the sum of the units'. -/
theorem encodeIsLinear : Obligations.EncodeIsLinear := by
  refine ⟨Codec.encode_xor, Codec.encode_zero, fun w d => ?_, by decide⟩
  rw [← Codec.encode_maskOf, ← Width.dataBits]
  apply Codec.encode_congr
  intro j hj
  have hnodup : (w.dataBits.filter (bitAt d)).Nodup :=
    List.Nodup.filter _ (by simpa [Width.dataBits] using List.nodup_range')
  have hrange : ∀ i ∈ w.dataBits.filter (bitAt d), 1 ≤ i ∧ i ≤ 32 := fun i hi => by
    obtain ⟨h1, hk⟩ := Width.mem_dataBits.mp (List.mem_filter.mp hi).1
    exact ⟨h1, hk.trans w.k_le⟩
  rw [bitAt_maskOf hnodup hrange (Width.mem_dataBits.mp hj).1]
  simp [hj]

end Sys2Proof.Machine
end

section
/-! SUPPORT. The syndrome as a sum (R84 to R88): its bits, its linearity, and what flipped positions
do to it. -/

namespace Sys2Proof.Machine

/-- Flipping positions one after another inverts the mask of them (R101). -/
theorem foldl_unitAt_eq_xor_maskOf {n : Nat} (v : BitVec n) (l : List Nat) :
    l.foldl (fun v i => v ^^^ unitAt n i) v = v ^^^ maskOf n l := by
  have hshift := List.foldl_hom (l := l) (v ^^^ ·) (g₁ := fun v i => v ^^^ unitAt n i)
    (g₂ := fun v i => v ^^^ unitAt n i) (init := 0#n) fun x i => BitVec.xor_assoc v x (unitAt n i)
  simpa [maskOf] using hshift

theorem Codec.foldl_flip (c : CodeWord) (F : List Nat) :
    F.foldl Codec.flip c = c ^^^ maskOf 38 F := foldl_unitAt_eq_xor_maskOf c F

/-- Flipping a position twice restores the vector (R98). -/
@[simp] theorem Codec.flip_flip (c : CodeWord) (q : Nat) : Codec.flip (Codec.flip c q) q = c := by
  simp [Codec.flip]

/-- The parity of a vector under a mask is its parity over the set of the mask (R84). -/
theorem xorOver_and_maskOf {n : Nat} {S : List Nat} (v : BitVec n) (hS : S.Nodup)
    (hr : ∀ i ∈ S, 1 ≤ i ∧ i ≤ n) :
    xorOver (List.range' 1 n) (bitAt (v &&& maskOf n S)) = xorOver S (bitAt v) := by
  have hbit {i : Nat} (h1 : 1 ≤ i) :
      bitAt (v &&& maskOf n S) i = (bitAt v i && decide (i ∈ S)) := by
    rw [← bitAt_maskOf hS hr h1, bitAt, BitVec.getLsbD_and, ← bitAt, ← bitAt]
  have hmem (i : Nat) : i ∈ (List.range' 1 n).filter (· ∈ S) ↔ i ∈ S := by
    simp only [List.mem_filter, List.mem_range'_1, decide_eq_true_eq, and_iff_right_iff_imp]
    intro hi
    obtain ⟨h1, hn⟩ := hr i hi
    omega
  have hperm : ((List.range' 1 n).filter (· ∈ S)).Perm S :=
    (List.perm_ext_iff_of_nodup (List.Nodup.filter _ List.nodup_range') hS).mpr hmem
  calc xorOver (List.range' 1 n) (bitAt (v &&& maskOf n S))
      = xorOver ((List.range' 1 n).filter (· ∈ S)) (bitAt (v &&& maskOf n S)) :=
        xorOver_filter fun i hi hiS => by
          rw [hbit (List.mem_range'_1.mp hi).1, hiS, Bool.and_false]
    _ = xorOver S (bitAt (v &&& maskOf n S)) := xorOver_perm hperm _
    _ = xorOver S (bitAt v) := xorOver_congr fun i hi => by
          simp [hbit (hr i hi).1, hi]

/-- Equal parities over a set and equal values at all its members but one make the values at that
one equal. -/
theorem eq_of_xorOver_eq {S : List Nat} {p : Nat} {f g : Nat → Bool} (hp : p ∈ S)
    (hsum : xorOver S f = xorOver S g) (hrest : ∀ i ∈ S.erase p, f i = g i) : f p = g p := by
  rw [xorOver_erase hp, xorOver_erase hp, xorOver_congr hrest] at hsum
  exact Bool.xor_left_inj.mp hsum

/-- The low bits of a number with their weights add up to it, modulo the weight above them. -/
theorem sum_testBit_eq_mod (x m : Nat) :
    ((List.range m).map fun j => (x.testBit j).toNat * 2 ^ j).sum = x % 2 ^ m := by
  induction m with
  | zero => simp [Nat.mod_one]
  | succ m ih => rw [List.sum_range_succ, ih, Nat.mod_pow_succ, Nat.toNat_testBit, Nat.mul_comm]

section
variable {w : Width}

/-- Bit `j` of the syndrome, for a bit it has (R84, R86). -/
theorem Codec.getLsbD_syndrome_of_lt (c : CodeWord) {j : Nat} (hj : j < w.m) :
    (Codec.syndrome w c).getLsbD j = xorOver (w.cov (2 ^ j)) (bitAt c) := by
  rw [Codec.getLsbD_syndrome, decide_eq_true hj, Bool.true_and, Codec.syndromeBit]

theorem Codec.syndrome_xor (w : Width) (a b : CodeWord) :
    Codec.syndrome w (a ^^^ b) = Codec.syndrome w a ^^^ Codec.syndrome w b := by
  apply BitVec.eq_of_getLsbD_eq
  intro j _
  simp only [BitVec.getLsbD_xor, Codec.getLsbD_syndrome, Codec.syndromeBit, xorOver_bitAt_xor,
    Bool.and_xor_distrib_left]

@[simp] theorem Codec.syndrome_zero (w : Width) : Codec.syndrome w 0#38 = 0#6 := by
  simpa using Codec.syndrome_xor w 0#38 0#38

/-- The syndrome of a single position is its number: the coverage sets that hold a position are
those of its bits (R72, R88). -/
theorem Codec.toNat_syndrome_unitAt {i : Nat} (hi : i ∈ w.positions) :
    (Codec.syndrome w (unitAt 38 i)).toNat = i := by
  obtain ⟨h1, hn⟩ := Width.mem_positions.mp hi
  apply Nat.eq_of_testBit_eq
  intro j
  change (Codec.syndrome w (unitAt 38 i)).getLsbD j = _
  rw [Codec.getLsbD_syndrome, Codec.syndromeBit_unitAt h1]
  by_cases hj : j < w.m
  · simp [hj, Width.mem_cov_two_pow hi]
  · have hlt : i < 2 ^ j :=
      (hn.trans_lt w.n_lt).trans_le (Nat.pow_le_pow_right (by omega) (by omega))
    simp [hj, Nat.testBit_lt_two_pow hlt]

/-- The syndrome of two positions is their XOR (R88). -/
theorem Codec.toNat_syndrome_unitAt_xor {a b : Nat} (ha : a ∈ w.positions) (hb : b ∈ w.positions) :
    (Codec.syndrome w (unitAt 38 a ^^^ unitAt 38 b)).toNat = a ^^^ b := by
  rw [Codec.syndrome_xor, BitVec.toNat_xor, Codec.toNat_syndrome_unitAt ha,
    Codec.toNat_syndrome_unitAt hb]

/-- A flip changes the syndrome by the number of its position (R88). -/
theorem Codec.toNat_syndrome_flip (c : CodeWord) {q : Nat} (hq : q ∈ w.positions) :
    (Codec.syndrome w (Codec.flip c q)).toNat = (Codec.syndrome w c).toNat ^^^ q := by
  rw [Codec.flip, Codec.syndrome_xor, BitVec.toNat_xor, Codec.toNat_syndrome_unitAt hq]

theorem Codec.toNat_syndrome_foldl_flip (c : CodeWord) {F : List Nat}
    (hF : ∀ i ∈ F, i ∈ w.positions) : (Codec.syndrome w (F.foldl Codec.flip c)).toNat =
      F.foldl (fun a i => a ^^^ i) (Codec.syndrome w c).toNat := by
  induction F generalizing c with
  | nil => rfl
  | cons q F ih =>
    rw [List.foldl_cons, ih _ fun i hi => hF i (List.mem_cons_of_mem _ hi),
      Codec.toNat_syndrome_flip c (hF q List.mem_cons_self), List.foldl_cons]

/-- The syndrome of a vector of syndrome 0 with some positions flipped is the XOR of their numbers
(R88). -/
theorem Codec.toNat_syndrome_xor_maskOf {c : CodeWord} {F : List Nat}
    (hc : Codec.syndrome w c = 0#6) (hF : ∀ i ∈ F, i ∈ w.positions) :
    (Codec.syndrome w (c ^^^ maskOf 38 F)).toNat = F.foldl (fun a i => a ^^^ i) 0 := by
  rw [← Codec.foldl_flip, Codec.toNat_syndrome_foldl_flip c hF, hc]
  rfl

/-- The syndrome of a codeword with one position flipped is the position (R88). -/
theorem Codec.toNat_syndrome_flip_encode (d : DataWord) {q : Nat} (hq : q ∈ w.positions) :
    (Codec.syndrome w (Codec.flip (Codec.encode w d) q)).toNat = q := by
  rw [Codec.toNat_syndrome_flip _ hq, Codec.syndrome_encode]
  exact Nat.zero_xor q

/-- The syndrome of a codeword with two positions flipped is their XOR (R92). -/
theorem Codec.toNat_syndrome_flip_flip_encode (d : DataWord) {a b : Nat} (ha : a ∈ w.positions)
    (hb : b ∈ w.positions) :
    (Codec.syndrome w (Codec.flip (Codec.flip (Codec.encode w d) a) b)).toNat = a ^^^ b := by
  rw [Codec.toNat_syndrome_flip _ hb, Codec.toNat_syndrome_flip_encode d ha]

end

end Sys2Proof.Machine
end

section
/-! SUPPORT. What the extractor sees (R93), and that the syndrome and the data determine a vector
(R87). -/

namespace Sys2Proof

/-- Codeword positions of every width number bits of the type `CodeWord`. -/
theorem Width.positions_range {w : Width} {F : List Nat} (hr : ∀ i ∈ F, i ∈ w.positions) :
    ∀ i ∈ F, 1 ≤ i ∧ i ≤ 38 := fun i hi => by
  obtain ⟨h1, hn⟩ := Width.mem_positions.mp (hr i hi)
  exact ⟨h1, hn.trans w.n_le⟩

end Sys2Proof

namespace Sys2Proof.Machine

section
variable {w : Width}

/-- Two vectors hold the same data exactly when they agree at the data positions (R93). -/
theorem Codec.extract_eq_iff {a b : CodeWord} :
    Codec.extract w a = Codec.extract w b ↔ ∀ i ∈ w.dataPositions, bitAt a i = bitAt b i := by
  rw [w.dataPositions_eq_map, ← Width.dataBits, List.forall_mem_map]
  constructor
  · intro h j hj
    rw [← Codec.bitAt_extract a hj, ← Codec.bitAt_extract b hj, h]
  · intro h
    apply eq_of_bitAt_eq
    intro j h1 _
    by_cases hk : j ≤ w.k
    · have hj : j ∈ w.dataBits := Width.mem_dataBits.mpr ⟨h1, hk⟩
      rw [Codec.bitAt_extract a hj, Codec.bitAt_extract b hj, h j hj]
    · rw [Codec.bitAt_extract_of_gt a (by omega), Codec.bitAt_extract_of_gt b (by omega)]

/-- Flipped positions leave the data exactly when they are all parity positions (R92, R93). -/
theorem Codec.extract_xor_maskOf_eq_iff (c : CodeWord) {F : List Nat} (hF : F.Nodup)
    (hr : ∀ i ∈ F, i ∈ w.positions) :
    Codec.extract w (c ^^^ maskOf 38 F) = Codec.extract w c ↔ ∀ i ∈ F, i ∈ w.paritySet := by
  have hbit {i : Nat} (hi : i ∈ w.dataPositions) :
      bitAt (c ^^^ maskOf 38 F) i = bitAt c i ↔ i ∉ F := by
    rw [bitAt_xor, bitAt_maskOf hF (Width.positions_range hr) (Width.mem_dataPositions.mp hi).1]
    cases bitAt c i <;> simp
  rw [Codec.extract_eq_iff]
  constructor
  · intro h i hi
    by_contra hpar
    have hdata := Width.mem_dataPositions_iff_notMem_paritySet.mpr ⟨hr i hi, hpar⟩
    exact (hbit hdata).mp (h i hdata) hi
  · intro h i hi
    exact (hbit hi).mpr fun hiF => (Width.mem_dataPositions_iff_notMem_paritySet.mp hi).2 (h i hiF)

/-- A flip at a parity position leaves the data (R93). -/
theorem Codec.extract_flip_parity (c : CodeWord) {p : Nat} (hp : p ∈ w.paritySet) :
    Codec.extract w (Codec.flip c p) = Codec.extract w c := by
  have hpos : p ∈ w.positions := Width.mem_positions.mpr (Width.paritySet_range hp)
  rw [show Codec.flip c p = c ^^^ maskOf 38 [p] from Codec.foldl_flip c [p]]
  exact (Codec.extract_xor_maskOf_eq_iff c (List.nodup_singleton p) (by simpa using hpos)).mpr
    (by simpa using hp)

/-- The syndrome and the data determine a vector of `N` bits: a parity bit is what the parity over
its coverage set and the set's other members, all data positions, leave for it (R87). -/
theorem Codec.eq_of_syndrome_eq_of_extract_eq {a b : CodeWord} (ha : a.toNat < 2 ^ w.n)
    (hb : b.toNat < 2 ^ w.n) (hs : Codec.syndrome w a = Codec.syndrome w b)
    (hx : Codec.extract w a = Codec.extract w b) : a = b := by
  have hdata {i : Nat} (hi : i ∈ w.positions) (hpar : i ∉ w.paritySet) : bitAt a i = bitAt b i :=
    Codec.extract_eq_iff.mp hx i (Width.mem_dataPositions_iff_notMem_paritySet.mpr ⟨hi, hpar⟩)
  apply eq_of_bitAt_eq
  intro i h1 _
  by_cases hn : i ≤ w.n
  · by_cases hpar : i ∈ w.paritySet
    · obtain ⟨j, hj, rfl⟩ := Width.mem_paritySet.mp hpar
      have hself : 2 ^ j ∈ w.cov (2 ^ j) := (Width.mem_cov_parity hpar hpar).mpr rfl
      apply eq_of_xorOver_eq hself
      · rw [← Codec.getLsbD_syndrome_of_lt a hj, ← Codec.getLsbD_syndrome_of_lt b hj, hs]
      · intro i hi
        obtain ⟨hne, hcov⟩ := (w.nodup_cov _).mem_erase_iff.mp hi
        exact hdata (Width.mem_positions.mpr (Width.mem_cov.mp hcov).1)
          fun hi => hne ((Width.mem_cov_parity hi hpar).mp hcov)
    · exact hdata (Width.mem_positions.mpr ⟨h1, hn⟩) hpar
  · rw [bitAt, bitAt, getLsbD_of_lt ha (by omega), getLsbD_of_lt hb (by omega)]

/-- Of the vectors of `N` bits, those of syndrome 0 are the encodings of their own data (R87). -/
theorem Codec.syndrome_eq_zero_iff {c : CodeWord} (hc : c.toNat < 2 ^ w.n) :
    Codec.syndrome w c = 0#6 ↔ c = Codec.encode w (Codec.extract w c) := by
  constructor
  · intro hs
    apply Codec.eq_of_syndrome_eq_of_extract_eq hc (Codec.encode_lt w _)
    · rw [hs, Codec.syndrome_encode]
    · rw [Codec.extract_encode (Codec.extract_lt w c)]
  · intro h
    rw [h, Codec.syndrome_encode]

end

end Sys2Proof.Machine
end

section
/-! SUPPORT. DECODE in each of the three classifications (R90, R91, R95), and the commands on
operands that fit their ports. -/

namespace Sys2Proof.Machine

section
variable {w : Width} {c : CodeWord} {e : PosWord}

theorem classify_eq_noError_iff : classify w e = .noError ↔ e = 0#6 := by
  constructor
  · intro h
    rcases classify_cases w e with ⟨h0, -⟩ | ⟨-, hv⟩ | ⟨-, hv⟩
    · exact BitVec.eq_of_toNat_eq h0
    · cases hv.symm.trans h
    · cases hv.symm.trans h
  · rintro rfl
    exact if_pos rfl

theorem classify_of_inRange (h1 : 1 ≤ e.toNat) (hn : e.toNat ≤ w.n) :
    classify w e = .corrected := by
  rw [classify, if_neg (by omega), if_pos ⟨h1, hn⟩]

theorem classify_of_gt (h : w.n < e.toNat) : classify w e = .uncorrectable := by
  rw [classify, if_neg (by omega), if_neg (by omega)]

/-- The corrector flips the position of a CORRECTED syndrome (R91). -/
theorem Codec.correct_of_corrected (h : classify w e = .corrected) :
    Codec.correct w c e = Codec.flip c e.toNat := by
  rw [Codec.correct, h, Codec.flip]

/-- The corrector leaves a vector with an UNCORRECTABLE syndrome (R91). -/
theorem Codec.correct_of_uncorrectable (h : classify w e = .uncorrectable) :
    Codec.correct w c e = c := by
  rw [Codec.correct, h]

/-- A DECODE of a vector with a CORRECTED syndrome reports the position and flips it (R95). -/
theorem Codec.decodeResponse_of_corrected (h : classify w (Codec.syndrome w c) = .corrected) :
    Codec.decodeResponse w c = ⟨true, 1#2, 0#2, 1#2, Codec.syndrome w c, Codec.syndrome w c,
      Codec.extract w (Codec.flip c (Codec.syndrome w c).toNat),
      Codec.flip c (Codec.syndrome w c).toNat⟩ := by
  simp only [Codec.decodeResponse, Codec.reportedPosition, Codec.correct_of_corrected h, h,
    statusCode, errNone]

/-- A DECODE of a vector with an UNCORRECTABLE syndrome returns it as received (R95). -/
theorem Codec.decodeResponse_of_uncorrectable
    (h : classify w (Codec.syndrome w c) = .uncorrectable) :
    Codec.decodeResponse w c =
      ⟨true, 1#2, 0#2, 2#2, Codec.syndrome w c, 0#6, Codec.extract w c, c⟩ := by
  simp only [Codec.decodeResponse, Codec.reportedPosition, Codec.correct_of_uncorrectable h, h,
    statusCode, errNone]

/-- A DECODE of a codeword with one position flipped reports the position and restores the codeword
(R96). -/
theorem Codec.decodeResponse_flip_encode {d : DataWord} {q : PosWord} (hd : d.toNat < 2 ^ w.k)
    (hq : q.toNat ∈ w.positions) :
    Codec.decodeResponse w (Codec.flip (Codec.encode w d) q.toNat) =
      ⟨true, 1#2, 0#2, 1#2, q, q, d, Codec.encode w d⟩ := by
  have hs : Codec.syndrome w (Codec.flip (Codec.encode w d) q.toNat) = q :=
    BitVec.eq_of_toNat_eq (Codec.toNat_syndrome_flip_encode d hq)
  obtain ⟨h1, hn⟩ := Width.mem_positions.mp hq
  have hclass : classify w q = .corrected := classify_of_inRange h1 hn
  rw [Codec.decodeResponse_of_corrected (hs.symm ▸ hclass), hs, Codec.flip_flip,
    Codec.extract_encode hd]

end

section
variable {s : State} {c : CodeWord}

/-- DECODE of a vector that fits the codeword port (R95). -/
theorem exec_decode_of_fits (hc : c.toNat < 2 ^ s.width.n) :
    exec (.decode c) s = .next (s.respond (Codec.decodeResponse s.width c)) := by
  rw [exec_eq_respond, Instr.response, Width.cwWires, lowBits_of_lt hc]

/-- FLIP at a position in range of a vector that fits the codeword port (R100). -/
theorem exec_flip_of_inRange {q : PosWord} (hc : c.toNat < 2 ^ s.width.n)
    (hq : q.toNat ∈ s.width.positions) : exec (.flip c q) s =
      .next (s.respond ⟨true, 2#2, 0#2, 0#2, 0#6, 0#6, 0#32, Codec.flip c q.toNat⟩) := by
  obtain ⟨h1, hn⟩ := Width.mem_positions.mp hq
  have hwires : s.width.posWires q = q := lowBits_of_lt (hn.trans_lt s.width.n_lt)
  have hrange : positionInRange s.width q.toNat = true := by simp [positionInRange, h1, hn]
  rw [exec_eq_respond, Instr.response, hwires, if_pos hrange, Width.cwWires, lowBits_of_lt hc]

end

/-- A position in range flipped leaves a vector within the codeword port (R98). -/
theorem Codec.flip_lt {w : Width} {c : CodeWord} {q : Nat} (hc : c.toNat < 2 ^ w.n)
    (hq : q ∈ w.positions) : (Codec.flip c q).toNat < 2 ^ w.n := by
  obtain ⟨h1, hn⟩ := Width.mem_positions.mp hq
  exact xor_unitAt_lt hc h1 hn

end Sys2Proof.Machine
end

section
/-! SUPPORT. Several flipped positions of a codeword (R92). -/

namespace Sys2Proof.Machine

section
variable {w : Width} {F : List Nat}

/-- Flips at distinct positions, one at least, change a vector. -/
theorem xor_maskOf_ne (c : CodeWord) (hF : F.Nodup) (hr : ∀ i ∈ F, i ∈ w.positions) (hne : F ≠ []) :
    c ^^^ maskOf 38 F ≠ c := by
  obtain ⟨a, ha⟩ := List.exists_mem_of_ne_nil F hne
  have hrange := Width.positions_range hr
  intro h
  have hbit := congrArg (bitAt · a) h
  simp [bitAt_maskOf hF hrange (hrange a ha).1, ha] at hbit

theorem xor_maskOf_lt {c : CodeWord} (hc : c.toNat < 2 ^ w.n) (hr : ∀ i ∈ F, i ∈ w.positions) :
    (c ^^^ maskOf 38 F).toNat < 2 ^ w.n := by
  rw [← Codec.foldl_flip]
  induction F generalizing c with
  | nil => exact hc
  | cons q F ih =>
    exact ih (Codec.flip_lt hc (hr q List.mem_cons_self))
      fun i hi => hr i (List.mem_cons_of_mem _ hi)

/-- Flips whose positions XOR to 0 turn a codeword into the codeword of other data (R92). -/
theorem Codec.extract_xor_maskOf_ne (d : DataWord) (hF : F.Nodup) (hr : ∀ i ∈ F, i ∈ w.positions)
    (hne : F ≠ []) (hsum : F.foldl (fun a i => a ^^^ i) 0 = 0) :
    Codec.extract w (Codec.encode w d ^^^ maskOf 38 F) ≠ d := by
  intro hd
  have hxor := Codec.toNat_syndrome_xor_maskOf (Codec.syndrome_encode w d) hr
  have hs : Codec.syndrome w (Codec.encode w d ^^^ maskOf 38 F) = 0#6 :=
    BitVec.eq_of_toNat_eq (hxor.trans hsum)
  have hcodeword := (Codec.syndrome_eq_zero_iff (xor_maskOf_lt (Codec.encode_lt w d) hr)).mp hs
  rw [hd] at hcodeword
  exact xor_maskOf_ne _ hF hr hne hcodeword

section
variable {a b : Nat} (d : DataWord) (ha : a ∈ w.positions) (hb : b ∈ w.positions) (hab : a ≠ b)
include ha hb hab

/-- The XOR of two distinct positions, where it is at most `N`, is a third position (R92). -/
theorem xor_is_third_position (hn : a ^^^ b ≤ w.n) :
    a ^^^ b ∈ w.positions ∧ a ^^^ b ≠ a ∧ a ^^^ b ≠ b := by
  obtain ⟨ha1, -⟩ := Width.mem_positions.mp ha
  obtain ⟨hb1, -⟩ := Width.mem_positions.mp hb
  have hxor : a ^^^ b ≠ 0 := Nat.xor_ne_zero_iff.mpr hab
  refine ⟨Width.mem_positions.mpr ⟨by omega, hn⟩, ?_, ?_⟩
  · rw [ne_eq, xor_left_eq_self_iff]
    omega
  · rw [ne_eq, xor_right_eq_self_iff]
    omega

/-- Two flips whose XOR is a position: flipping it as a third one gives a codeword of other
data (R92). -/
theorem Codec.flip_xor_of_two_flips (hn : a ^^^ b ≤ w.n) :
    Codec.flip (Codec.flip (Codec.flip (Codec.encode w d) a) b) (a ^^^ b) =
      Codec.encode w d ^^^ maskOf 38 [a, b, a ^^^ b] ∧
    Codec.extract w
      (Codec.flip (Codec.flip (Codec.flip (Codec.encode w d) a) b) (a ^^^ b)) ≠ d := by
  obtain ⟨he, hea, heb⟩ := xor_is_third_position ha hb hab hn
  have hnodup : [a, b, a ^^^ b].Nodup := by simp [hab, hea.symm, heb.symm]
  have hr : ∀ i ∈ [a, b, a ^^^ b], i ∈ w.positions := by simp [ha, hb, he]
  have hflips := Codec.foldl_flip (Codec.encode w d) [a, b, a ^^^ b]
  simp only [List.foldl_cons, List.foldl_nil] at hflips
  rw [hflips]
  exact ⟨rfl, Codec.extract_xor_maskOf_ne d hnodup hr (by simp) (by simp)⟩

/-- Two flips leave the data wrong exactly when one is at a data position (R92). -/
theorem Codec.extract_two_flips_ne_iff (hd : d.toNat < 2 ^ w.k) :
    Codec.extract w (Codec.flip (Codec.flip (Codec.encode w d) a) b) ≠ d ↔
      isPow2 a = false ∨ isPow2 b = false := by
  have hflips : Codec.flip (Codec.flip (Codec.encode w d) a) b =
      Codec.encode w d ^^^ maskOf 38 [a, b] := Codec.foldl_flip (Codec.encode w d) [a, b]
  have hdata := Codec.extract_xor_maskOf_eq_iff (w := w) (F := [a, b]) (Codec.encode w d)
    (by simpa using hab) (by simp [ha, hb])
  rw [Codec.extract_encode hd, List.forall_mem_cons, List.forall_mem_singleton,
    ← Width.isPow2_iff ha, ← Width.isPow2_iff hb] at hdata
  rw [hflips, ne_eq, hdata, not_and_or, Bool.not_eq_true, Bool.not_eq_true]

end

end

end Sys2Proof.Machine
end

section
/-! PROOFS. The statements on the decoder (R84 to R96). -/

namespace Sys2Proof.Machine

/-- Settles O32: the bits by the law of the syndrome and the parity under a mask, the value as the
sum of its bits. -/
theorem syndromeBits : Obligations.SyndromeBits := by
  refine fun w c => ⟨fun j hj => ⟨Codec.getLsbD_syndrome_of_lt c hj, ?_⟩, ?_⟩
  · rw [Codec.getLsbD_syndrome_of_lt c hj, xorOver_and_maskOf c (w.nodup_cov _)]
    intro i hi
    obtain ⟨⟨h1, hn⟩, -⟩ := Width.mem_cov.mp hi
    exact ⟨h1, hn.trans w.n_le⟩
  · rw [← Nat.mod_eq_of_lt (Codec.syndrome_lt w c), ← sum_testBit_eq_mod]
    congr 1
    apply List.map_congr_left
    intro j hj
    rw [← Codec.getLsbD_syndrome_of_lt c (List.mem_range.mp hj), BitVec.getLsbD]

/-- Settles O33: the syndrome and the data determine a vector, and `Extract` inverts `Encode`. -/
theorem zeroSyndromeIsCodeword : Obligations.ZeroSyndromeIsCodeword := by
  refine fun w => ⟨fun c => Codec.syndrome_eq_zero_iff, fun c hc => ⟨fun h => ?_, ?_⟩,
    fun a b ha hb h => ?_⟩
  · exact ⟨_, Codec.extract_lt w c, (Codec.syndrome_eq_zero_iff hc).mp h⟩
  · rintro ⟨d, -, rfl⟩
    exact Codec.syndrome_encode w d
  · rw [← Codec.extract_encode ha, h, Codec.extract_encode hb]

/-- Settles O34: linearity, the syndrome of a unit vector, and an induction over the flipped
positions. -/
theorem syndromeIsLinear : Obligations.SyndromeIsLinear :=
  fun w => ⟨Codec.syndrome_xor w, fun _ => Codec.toNat_syndrome_unitAt,
    fun _ _ hc _ => Codec.toNat_syndrome_xor_maskOf hc⟩

/-- Settles O35: the syndrome of one flip is its position, and that of a pair is the XOR of the two,
so the pairs can be counted. -/
theorem syndromeRange : Obligations.SyndromeRange := by
  refine ⟨fun w c => Nat.le_sub_one_of_lt (Codec.syndrome_lt w c),
    fun w d => ⟨?_, fun q hq => ?_⟩, ?_⟩
  · simp [Codec.syndrome_encode]
  · rw [Codec.toNat_syndrome_flip_encode d hq]
    exact (Width.mem_positions.mp hq).2
  · have hpairs (w : Width) :
        (w.positions.product w.positions).filter (fun p => decide (p.1 < p.2 ∧
          w.n < (Codec.syndrome w (unitAt 38 p.1 ^^^ unitAt 38 p.2)).toNat)) =
        (w.positions.product w.positions).filter fun p =>
          decide (p.1 < p.2 ∧ w.n < p.1 ^^^ p.2) := by
      apply List.filter_congr
      rintro ⟨a, b⟩ hp
      obtain ⟨ha, hb⟩ := List.mem_product.mp hp
      rw [Codec.toNat_syndrome_unitAt_xor ha hb]
    simp only [hpairs]
    decide +kernel

/-- Settles O36: the decoder's law, the response in each classification, and the spec's values by
computing them. -/
theorem decodeCommand : Obligations.DecodeCommand := by
  refine ⟨fun w c hc hop => ?_, fun c s hc => ?_, fun w => ?_, by decide +kernel, by decide⟩
  · obtain ⟨-, hdecode, -⟩ := (wordSelectsItsOperation w).1 c hc
    exact hdecode hop
  · rw [exec_decode_of_fits hc]
    refine ⟨fun h => ?_, fun h1 hn => ?_, fun h => ?_⟩
    · have hzero : Codec.syndrome s.width c = 0#6 := BitVec.eq_of_toNat_eq h
      rw [Codec.decodeResponse_of_syndrome_zero hzero, hzero]
      rfl
    · rw [Codec.decodeResponse_of_corrected (classify_of_inRange h1 hn)]
      rfl
    · rw [Codec.decodeResponse_of_uncorrectable (classify_of_gt h)]
      rfl
  · have hzero : Codec.extract w 0#38 = 0#32 := by
      simpa using Codec.extract_encode (w := w) (d := 0#32) (Nat.two_pow_pos _)
    exact ⟨Codec.syndrome_zero w, hzero, by cases w <;> decide⟩

/-- Settles O37: the extractor's law at each data bit, and its blindness to parity positions. -/
theorem extractReadsTheDataPositions : Obligations.ExtractReadsTheDataPositions :=
  fun w c => ⟨fun _ h1 hk => Codec.bitAt_extract c (Width.mem_dataBits.mpr ⟨h1, hk⟩),
    Codec.extract_lt w c, fun _ => Codec.extract_flip_parity c⟩

/-- Settles O38: a parity position is in range, and its flip leaves the data. -/
theorem parityPositionCorrection : Obligations.ParityPositionCorrection := by
  intro s c hc hpar
  obtain ⟨h1, hn⟩ := Width.paritySet_range hpar
  have hclass : classify s.width (Codec.syndrome s.width c) = .corrected :=
    classify_of_inRange h1 hn
  rw [Codec.correct_of_corrected hclass, exec_decode_of_fits hc,
    Codec.decodeResponse_of_corrected hclass, Codec.extract_flip_parity c hpar]
  exact ⟨hclass, rfl, rfl⟩

/-- Settles O39: DECODE of a codeword is the round trip, and DECODE of a flipped one restores it. -/
theorem singleErrorIsCorrected : Obligations.SingleErrorIsCorrected := by
  intro s d hd
  obtain ⟨-, hencode, -⟩ := encodeCommand
  obtain ⟨-, -, hdecode⟩ := roundTrip
    (s.respond ⟨true, 0#2, 0#2, 0#2, 0#6, 0#6, 0#32, Codec.encode s.width d⟩) d hd
  refine ⟨_, hencode d s hd, rfl, ⟨_, hdecode, rfl, rfl, rfl, rfl⟩, fun q h1 hn => ?_⟩
  have hq : q.toNat ∈ s.width.positions := Width.mem_positions.mpr ⟨h1, hn⟩
  have hcw := Codec.encode_lt s.width d
  refine ⟨_, _, exec_flip_of_inRange hcw hq, rfl, exec_decode_of_fits (Codec.flip_lt hcw hq), ?_⟩
  simp only [State.respond_rsp, State.respond_width]
  rw [Codec.decodeResponse_flip_encode hd hq]
  exact ⟨rfl, rfl, rfl, rfl, rfl⟩

/-- Settles O40: the syndrome is the XOR of the flipped positions, which classifies; a third flip
that cancels it ends at another codeword. -/
theorem multiBitErrors : Obligations.MultiBitErrors := by
  refine ⟨fun w d a b hd ha hb hab => ?_, fun d _ => ?_⟩
  · intro c f e
    have he : e.toNat = a ^^^ b := Codec.toNat_syndrome_flip_flip_encode d ha hb
    have hne : e ≠ 0#6 := by
      intro h
      rw [h] at he
      exact hab (Nat.xor_eq_zero_iff.mp he.symm)
    refine ⟨he, hne, classify_eq_noError_iff.not.mpr hne, fun hn => ?_, fun hn => ?_⟩
    · have hpos : 1 ≤ e.toNat := Nat.one_le_iff_ne_zero.mpr fun h => hne (BitVec.eq_of_toNat_eq h)
      have hclass : classify w e = .corrected := classify_of_inRange hpos hn
      have hflip : Codec.correct w f e = Codec.flip f e.toNat := Codec.correct_of_corrected hclass
      rw [hflip, he]
      rw [he] at hn
      obtain ⟨-, hea, heb⟩ := xor_is_third_position ha hb hab hn
      obtain ⟨hcw, hdata⟩ := Codec.flip_xor_of_two_flips d ha hb hab hn
      exact ⟨hclass, hea, heb, hcw, hdata⟩
    · have hclass : classify w e = .uncorrectable := classify_of_gt hn
      exact ⟨hclass, Codec.correct_of_uncorrectable hclass,
        Codec.extract_two_flips_ne_iff d ha hb hab hd⟩
  · intro after verdict
    have hsyn {F : List Nat} (hr : ∀ i ∈ F, i ∈ Width.k8.positions) :
        (Codec.syndrome .k8 (after F)).toNat = F.foldl (fun a i => a ^^^ i) 0 :=
      Codec.toNat_syndrome_xor_maskOf (Codec.syndrome_encode .k8 d) hr
    have h567 : (Codec.syndrome .k8 (after [5, 6, 7])).toNat = 4 := hsyn (by decide)
    have h148 : (Codec.syndrome .k8 (after [1, 4, 8])).toNat = 13 := hsyn (by decide)
    refine ⟨classify_eq_noError_iff.mpr (BitVec.eq_of_toNat_eq (hsyn (by decide))), ?_, ?_, ?_⟩
    · exact Codec.extract_xor_maskOf_ne d (by decide) (by decide) (by decide) (by decide)
    · exact classify_of_inRange (by simp [h567]) (by simp [h567])
    · exact classify_of_gt (by simp [h148])

end Sys2Proof.Machine
end

section
/-! PROOFS. The statements on the flipper (R98 to R101), and what a CORRECTED report does not
promise (R108). -/

namespace Sys2Proof.Machine

/-- A flip inverts its position and leaves every other (R98). -/
theorem Codec.bitAt_flip (c : CodeWord) {q i : Nat} (hq : 1 ≤ q) (hi : 1 ≤ i) (hn : i ≤ 38) :
    bitAt (Codec.flip c q) i = if i = q then !bitAt c i else bitAt c i := by
  rw [Codec.flip, bitAt_xor, bitAt_unitAt hq hi]
  by_cases h : i = q
  · simp [h, h ▸ hn]
  · simp [h]

/-- Flips commute (R101). -/
theorem Codec.flip_comm (c : CodeWord) (q r : Nat) :
    Codec.flip (Codec.flip c q) r = Codec.flip (Codec.flip c r) q := by
  simp only [Codec.flip]
  ac_rfl

/-- Flips in any order give the same vector (R101). -/
theorem Codec.foldl_flip_perm (c : CodeWord) {F G : List Nat} (h : G.Perm F) :
    G.foldl Codec.flip c = F.foldl Codec.flip c :=
  haveI : RightCommutative Codec.flip := ⟨Codec.flip_comm⟩
  h.foldl_eq c

/-- Settles O42: a flip is an XOR with one bit, so flips commute, and a list of them is an XOR with
the mask of the list. -/
theorem flipAlgebra : Obligations.FlipAlgebra := by
  refine ⟨fun w c q i hq hi => ?_, fun c q r => ⟨Codec.flip_flip c q, Codec.flip_comm c q r⟩,
    fun w c F G hF hr hperm => ⟨?_, fun i hi => ?_⟩⟩
  · obtain ⟨hq1, -⟩ := Width.mem_positions.mp hq
    obtain ⟨hi1, hin⟩ := Width.mem_positions.mp hi
    exact Codec.bitAt_flip c hq1 hi1 (hin.trans w.n_le)
  · rw [Codec.foldl_flip_perm c hperm, Codec.foldl_flip]
  · exact bitAt_maskOf hF (Width.positions_range hr) (Width.mem_positions.mp hi).1

/-- Settles O43: the decoder's law, FLIP in and out of range, and the spec's values by computing
them. -/
theorem flipCommand : Obligations.FlipCommand := by
  refine ⟨fun w c hc hop => ?_, fun c q s hc hq => ⟨fun h1 hn => ?_, fun hout => ?_⟩,
    by decide, by decide, by decide, by decide, by decide, by decide⟩
  · obtain ⟨-, -, hdecode, -⟩ := (wordSelectsItsOperation w).1 c hc
    exact hdecode hop
  · exact exec_flip_of_inRange hc (Width.mem_positions.mpr ⟨h1, hn⟩)
  · exact exec_flip_of_outside c hq hout

/-- Settles O41: in program P3 the codeword of `0x4B` with positions 1 and 2 flipped is "corrected"
at position 3, into the codeword of `0x4A`. -/
theorem correctedDoesNotPromiseTheData : Obligations.CorrectedDoesNotPromiseTheData := by
  have hresponse :
      Codec.decodeResponse .k8 (Codec.flip (Codec.flip (Codec.encode .k8 0x4B#32) 1) 2) =
      ⟨true, 1#2, 0#2, 1#2, 3#6, 3#6, 0x4A#32, Codec.encode .k8 0x4A#32⟩ := by decide +kernel
  refine ⟨0x4B#32, 1, 2, by decide, by decide, by decide, ?_⟩
  rw [hresponse]
  decide

end Sys2Proof.Machine
end

section
/-! SUPPORT. INJECT (R103 to R106): its checks, the FLIPs it expands to, and the run through
them. -/

namespace Sys2Proof.Machine

section
variable {w : Width} {o : CwOperand} {src : CwSource} {qs : List Int}

theorem Stmt.expand_inject_of_refused_operand {e : HostError} (ho : o.toSource w = .error e) :
    (Stmt.inject o qs).expand w = .error e := by
  rw [Stmt.expand, expandInject, ho]

theorem Stmt.expand_inject_of_duplicate (ho : o.toSource w = .ok src) (h : ¬ qs.Nodup) :
    (Stmt.inject o qs).expand w = .error .duplicatePosition := by
  simp only [Stmt.expand, expandInject, ho, if_pos h]

/-- An INJECT position passes the check exactly when it is in `[1, N]` (R105). -/
theorem injectPositionOk_iff {q : Int} : injectPositionOk w q = true ↔ 1 ≤ q ∧ q ≤ w.n := by
  rw [injectPositionOk, Bool.and_eq_true, decide_eq_true_iff, decide_eq_true_iff]

theorem Stmt.expand_inject_of_outside (ho : o.toSource w = .ok src) (hnd : qs.Nodup)
    (h : ∃ q ∈ qs, q < 1 ∨ q > w.n) :
    (Stmt.inject o qs).expand w = .error .positionOutOfRange := by
  have hany : qs.any (fun q => !injectPositionOk w q) = true := by
    obtain ⟨q, hq, hout⟩ := h
    refine List.any_eq_true.mpr ⟨q, hq, ?_⟩
    rw [Bool.not_eq_true', ← Bool.not_eq_true, injectPositionOk_iff]
    omega
  simp only [Stmt.expand, expandInject, ho, if_neg (not_not.mpr hnd), if_pos hany]

/-- An INJECT that passes its checks drives its FLIPs (R104). -/
theorem Stmt.expand_inject_of_accepted (ho : o.toSource w = .ok src) (hnd : qs.Nodup)
    (hr : ∀ q ∈ qs, 1 ≤ q ∧ q ≤ w.n) :
    (Stmt.inject o qs).expand w = .ok (injectFlips src qs) := by
  have hany : ¬ qs.any (fun q => !injectPositionOk w q) = true := by
    simpa [injectPositionOk_iff] using hr
  simp only [Stmt.expand, expandInject, ho, if_neg (not_not.mpr hnd), if_neg hany]

/-- A position in `[1, N]` is driven as it is (R62). -/
theorem toNat_injectPosition {q : Int} (h : 1 ≤ q ∧ q ≤ w.n) :
    (BitVec.ofInt 6 q).toNat = q.toNat := by
  have hn := w.n_le
  rw [BitVec.toNat_ofInt]
  omega

theorem injectPosition_mem_positions {q : Int} (h : 1 ≤ q ∧ q ≤ w.n) :
    (BitVec.ofInt 6 q).toNat ∈ w.positions := by
  rw [toNat_injectPosition h, Width.mem_positions]
  omega

theorem injectPosition_lt {q : Int} (h : 1 ≤ q ∧ q ≤ w.n) : (BitVec.ofInt 6 q).toNat < 2 ^ w.m :=
  (Width.mem_positions.mp (injectPosition_mem_positions h)).2.trans_lt w.n_lt

/-- An INJECT drives FLIPs of its positions and nothing else (R104). -/
theorem exists_of_mem_injectFlips {d : Drive} (h : d ∈ injectFlips src qs) :
    ∃ c, ∃ q ∈ qs, d = Drive.flip c (BitVec.ofInt 6 q) := by
  induction qs generalizing src with
  | nil => cases h
  | cons q qs ih =>
    obtain rfl | h := List.mem_cons.mp h
    · exact ⟨src, q, List.mem_cons_self, rfl⟩
    · obtain ⟨c, p, hp, rfl⟩ := ih h
      exact ⟨c, p, List.mem_cons_of_mem _ hp, rfl⟩

/-- The FLIPs are in the order of the list (R104). -/
theorem map_cmdPos_injectFlips (src : CwSource) (hr : ∀ q ∈ qs, 1 ≤ q ∧ q ≤ w.n) :
    (injectFlips src qs).map (fun d => (d.cmdPos.toNat : Int)) = qs := by
  induction qs generalizing src with
  | nil => rfl
  | cons q qs ih =>
    obtain ⟨hq, hqs⟩ := List.forall_mem_cons.mp hr
    have hvalue : ((BitVec.ofInt 6 q).toNat : Int) = q := by
      rw [toNat_injectPosition hq]
      omega
    exact congrArg₂ List.cons hvalue (ih .rspCw hqs)

/-- The FLIPs after the first work on `rsp_cw` (R104). -/
theorem cmdCw_of_mem_injectFlips_rspCw {d : Drive} (h : d ∈ injectFlips .rspCw qs) :
    d.cmdCw = .rspCw := by
  induction qs with
  | nil => cases h
  | cons q qs ih =>
    obtain rfl | h := List.mem_cons.mp h
    · rfl
    · exact ih h

end

/-- The response of a FLIP that leaves the vector `c` (R100). -/
def flipResponse (c : CodeWord) : Response := ⟨true, 2#2, 0#2, 0#2, 0#6, 0#6, 0#32, c⟩

/-- FLIP at a position in range of what the codeword port carries (R100). -/
theorem Instr.response_flip_of_inRange {w : Width} (c : CodeWord) {q : PosWord}
    (hq : q.toNat ∈ w.positions) :
    Instr.response w (.flip c q) = flipResponse (Codec.flip (w.cwWires c) q.toNat) := by
  obtain ⟨h1, hn⟩ := Width.mem_positions.mp hq
  have hwires : w.posWires q = q := lowBits_of_lt (hn.trans_lt w.n_lt)
  rw [Instr.response, hwires, if_pos (by simp [positionInRange, h1, hn]), flipResponse]

/-- The operand `rsp_cw` is what the register holds, where the registers can be read (R65). -/
theorem State.cwOfSource_rspCw {s : State} (hs : s.Readable) :
    s.cwOfSource .rspCw = .ok s.rsp.cw := by
  obtain ⟨hseen, hr⟩ := hs
  rw [State.cwOfSource, State.readResponse_ok s hseen hr]

/-- A step in which the ports carry a command writes its response, and the host moves on (R125). -/
theorem step_of_presents {s : State} {i : Instr} (hr : s.holdsReservedCode = false)
    (h : s.Presents i) : step s = (s.respond (Instr.response s.width i)).cycle := by
  obtain ⟨hrst, hvalid, rfl⟩ := h
  have hedge : s.edge = .next (s.respond (Instr.response s.width (s.inp.command s.width))) := by
    simp [State.edge, hrst, hvalid, exec_eq_respond]
  rw [step, hr, if_neg Bool.false_ne_true, hedge, andThen]

/-- A run of INJECT has reached the FLIP of `v` at `q`, which is on the ports; the FLIPs at `qs` are
still to be driven, on `rsp_cw` (R104). -/
structure State.Injecting (s : State) (v : CodeWord) (q : Int) (qs : List Int) : Prop where
  readable : s.Readable
  fits : v.toNat < 2 ^ s.width.n
  inRange : ∀ p ∈ q :: qs, 1 ≤ p ∧ p ≤ s.width.n
  ports : s.inp = (Drive.flip .rspCw (BitVec.ofInt 6 q)).inputs v
  pending : s.pending = injectFlips .rspCw qs
  program : s.program = []

section
variable {s : State} {v : CodeWord} {q : Int} {qs : List Int}

/-- The ports of a FLIP that fits carry that FLIP (R51). -/
theorem State.Injecting.presents (h : s.Injecting v q qs) :
    s.Presents (.flip v (BitVec.ofInt 6 q)) := by
  have hpos : (BitVec.ofInt 6 q).toNat < 2 ^ s.width.m :=
    injectPosition_lt (h.inRange q List.mem_cons_self)
  have hcommand : s.inp.command s.width =
      .flip (s.width.cwWires v) (s.width.posWires (BitVec.ofInt 6 q)) := by
    rw [h.ports]
    rfl
  refine ⟨by rw [h.ports]; rfl, by rw [h.ports]; rfl, ?_⟩
  rw [hcommand, Width.cwWires, Width.posWires, lowBits_of_lt h.fits, lowBits_of_lt hpos]

/-- A step of INJECT flips its position, and the host moves on with the FLIPs still to be driven. -/
theorem State.Injecting.step_flips (h : s.Injecting v q qs) :
    ∃ u : State, step s = u.presentNext ∧ u.Readable ∧ u.width = s.width ∧
      u.rsp = flipResponse (Codec.flip v q.toNat) ∧ u.pending = injectFlips .rspCw qs ∧
      u.program = [] := by
  have hq := h.inRange q List.mem_cons_self
  refine ⟨(s.respond (flipResponse (Codec.flip v q.toNat))).sample, ?_, ⟨?_, ?_⟩, ?_, ?_, ?_, ?_⟩
  · rw [step_of_presents h.readable.2 h.presents, State.cycle,
      Instr.response_flip_of_inRange v (injectPosition_mem_positions hq), toNat_injectPosition hq,
      Width.cwWires, lowBits_of_lt h.fits]
  · simpa using h.readable.1
  · simp [State.holdsReservedCode, reservedResponseCode, flipResponse]
  · simp
  · simp
  · simpa using h.pending
  · simpa using h.program

/-- With FLIPs left, a step of INJECT goes on to the next of them, on the vector just flipped. -/
theorem State.Injecting.step_cons {p : Int} (h : s.Injecting v q (p :: qs)) :
    ∃ t, step s = .next t ∧ t.Injecting (Codec.flip v q.toNat) p qs := by
  obtain ⟨hq, hqs⟩ := List.forall_mem_cons.mp h.inRange
  obtain ⟨u, hstep, hread, hwidth, hrsp, hpending, hprogram⟩ := h.step_flips
  have hflip : (Codec.flip v q.toNat).toNat < 2 ^ s.width.n :=
    Codec.flip_lt h.fits (toNat_injectPosition hq ▸ injectPosition_mem_positions hq)
  have hcw : u.cwOfSource .rspCw = .ok (Codec.flip v q.toNat) := by
    rw [State.cwOfSource_rspCw hread, hrsp, flipResponse]
  rw [← hwidth] at hqs hflip
  have hmove := State.presentNext_pending hpending hcw
    ⟨Nat.two_pow_pos _, hflip, injectPosition_lt (hqs p List.mem_cons_self)⟩
  exact ⟨_, hstep.trans hmove, hread, hflip, hqs, rfl, rfl, hprogram⟩

/-- The last step of INJECT ends the run (R139). -/
theorem State.Injecting.step_nil (h : s.Injecting v q []) :
    ∃ t, step s = .next t ∧ t.rsp = flipResponse (Codec.flip v q.toNat) ∧ t.runEnded = true := by
  obtain ⟨u, hstep, -, -, hrsp, hpending, hprogram⟩ := h.step_flips
  have hmove : u.presentNext =
      .next { u with program := [], inp := Inputs.idle, driving := false } := by
    rw [State.presentNext_program hpending, hprogram, State.nextStatement]
  refine ⟨_, hstep.trans hmove, hrsp, ?_⟩
  simp [State.runEnded, hpending, injectFlips, Inputs.idle]

/-- A run through the FLIPs of INJECT flips all its positions and ends (R104). -/
theorem State.Injecting.run (h : s.Injecting v q qs) :
    ∃ t, Host.Core.run core (qs.length + 1) s = .next t ∧
      t.rsp = flipResponse (((q :: qs).map Int.toNat).foldl Codec.flip v) ∧ t.runEnded = true := by
  induction qs generalizing s v q with
  | nil =>
    obtain ⟨t, ht, hrsp, hended⟩ := h.step_nil
    refine ⟨t, ?_, hrsp, hended⟩
    rw [run_succ, ht]
    rfl
  | cons p qs ih =>
    obtain ⟨u, hu, hnext⟩ := h.step_cons
    obtain ⟨t, ht, hrsp, hended⟩ := ih hnext
    refine ⟨t, ?_, hrsp, hended⟩
    rw [List.length_cons, run_succ, hu]
    exact ht

/-- Loading an accepted INJECT puts its first FLIP on the ports (R104). -/
theorem State.load_inject {o : CwOperand} {src : CwSource} (hs : s.Readable)
    (ho : o.toSource s.width = .ok src) (hv : s.cwOfSource src = .ok v)
    (hfits : v.toNat < 2 ^ s.width.n) (hnd : (q :: qs).Nodup)
    (hr : ∀ p ∈ q :: qs, 1 ≤ p ∧ p ≤ s.width.n) :
    ∃ s0, s.load [.inject o (q :: qs)] = .next s0 ∧ s0.Injecting v q qs := by
  have hmove := State.presentNext_statement
    (s := { s with pending := [], program := [.inject o (q :: qs)] }) rfl rfl
    (Stmt.expand_inject_of_accepted ho hnd hr) ((State.cwOfSource_congr rfl rfl _).trans hv)
    ⟨Nat.two_pow_pos _, hfits, injectPosition_lt (hr q List.mem_cons_self)⟩
  exact ⟨_, hmove, hs, hfits, hr, rfl, rfl, rfl⟩

/-- The host notes the codeword of an empty INJECT as its result (R106). -/
theorem State.noteResult_inject_nil {o : CwOperand} {src : CwSource}
    (ho : o.toSource s.width = .ok src) (hv : s.cwOfSource src = .ok v) :
    s.noteResult (.inject o []) = .ok (s.note (.value v)) := by
  simp only [State.noteResult, ho, hv, Except.map]

end

end Sys2Proof.Machine
end

section
/-! PROOFS. The statements on INJECT (R103 to R106). -/

namespace Sys2Proof.Machine

/-- Settles O54: the three checks in their order, the FLIPs by induction over the positions, and the
host's move after a refused statement. -/
theorem injectChecksThenFlips : Obligations.InjectChecksThenFlips := by
  intro w o qs
  refine ⟨fun e => Stmt.expand_inject_of_refused_operand, fun src ho =>
    ⟨Stmt.expand_inject_of_duplicate ho, Stmt.expand_inject_of_outside ho, fun hnd hr => ?_⟩, ?_⟩
  · refine ⟨_, Stmt.expand_inject_of_accepted ho hnd hr, map_cmdPos_injectFlips src hr,
      fun d hd => ?_, ?_, ?_, fun d hd s c hw => ?_⟩
    · obtain ⟨c, q, -, rfl⟩ := exists_of_mem_injectFlips hd
      exact ⟨rfl, rfl, rfl⟩
    · cases qs <;> simp [injectFlips, Drive.flip]
    · cases qs with
      | nil => simp [injectFlips]
      | cons q qs => exact fun d => cmdCw_of_mem_injectFlips_rspCw
    · obtain ⟨c', q, hq, rfl⟩ := exists_of_mem_injectFlips hd
      subst hw
      have hresponse := Instr.response_flip_of_inRange c (injectPosition_mem_positions (hr q hq))
      exact ⟨_, exec_eq_respond _ s, congrArg Response.err hresponse⟩
  · rintro s e rfl he hp hprog
    obtain ⟨-, hmove⟩ := refusedStatementIssuesNothing s _ [] e he hp hprog
    exact ⟨_, hmove rfl, rfl, rfl, rfl, hp, rfl⟩

/-- Settles O55: loading drives the first FLIP, each step flips one position and takes the result on
to the next, and a sequence of flips is one XOR. -/
theorem injectRunFlipsThePositions : Obligations.InjectRunFlipsThePositions := by
  intro s o src v qs hs ho hv hfits hne hnd hr
  obtain ⟨q, qs, rfl⟩ := List.exists_cons_of_ne_nil hne
  obtain ⟨s0, hload, hinjecting⟩ := State.load_inject hs ho hv hfits hnd hr
  obtain ⟨t, hrun, hrsp, hended⟩ := hinjecting.run
  rw [Codec.foldl_flip] at hrsp
  exact ⟨s0, t, hload, hrun, hrsp, hended⟩

/-- Settles O56: an empty INJECT expands to no cycle, and the host notes its codeword and moves
on. -/
theorem emptyInject : Obligations.EmptyInject := by
  intro s o src v rest ho hv hp hprog
  have hexpand : (Stmt.inject o []).expand s.width = .ok [] :=
    Stmt.expand_inject_of_accepted ho List.nodup_nil (by simp)
  have hmove : s.presentNext =
      State.presentNext { s with program := rest, record := s.record ++ [.value v] } := by
    rw [State.presentNext_program hp, hprog, State.nextStatement, hexpand]
    simp only [State.noteResult_inject_nil ho hv]
    exact (State.presentNext_withProgram (s := s.note (.value v)) hp).symm
  refine ⟨hexpand, hmove, ?_⟩
  rintro rfl
  exact hmove.trans (State.presentNext_withProgram (s := s.note (.value v)) hp)

end Sys2Proof.Machine
end

section
/-! PROOFS. The statements on errors (R110, R114, R115, R119). -/

namespace Sys2Proof.Machine

/-- A command's response has no error, or it is the error pattern with the command's operation and one
of the two codes (R114). -/
theorem Instr.response_error_cases (w : Width) (i : Instr) :
    (Instr.response w i).err = 0#2 ∨
    ∃ code, (code = 1#2 ∨ code = 2#2) ∧
      Instr.response w i = ⟨true, i.op, code, 0#2, 0#6, 0#6, 0#32, 0#38⟩ := by
  cases i with
  | encode d => exact .inl rfl
  | decode c => exact .inl rfl
  | flip c p =>
    by_cases h : positionInRange w (w.posWires p).toNat = true
    · exact .inl (by rw [Instr.response, if_pos h])
    · exact .inr ⟨1#2, .inl rfl, by rw [Instr.response, if_neg h, Instr.op]⟩
  | illegalOp => exact .inr ⟨2#2, .inr rfl, rfl⟩

/-- Settles O44: the decoder's law, the response of the reserved operation, and the two kinds of
response a command can write. -/
theorem illegalOpCommand : Obligations.IllegalOpCommand := by
  refine ⟨fun w c hc hop => ?_, exec_eq_respond .illegalOp, fun i s t h herr => ?_⟩
  · obtain ⟨-, -, -, hdecode⟩ := (wordSelectsItsOperation w).1 c hc
    exact hdecode hop
  · cases (exec_eq_respond i s).symm.trans h
    rw [State.respond_rsp] at herr ⊢
    rcases Instr.response_error_cases s.width i with hnone | ⟨code, hcode, hpattern⟩
    · exact absurd hnone herr
    · rw [hpattern]
      exact ⟨rfl, hcode⟩

/-- Settles O45: the first command keeps the width, and nothing else of the state matters to the
second. -/
theorem errorIsNotSticky : Obligations.ErrorIsNotSticky := by
  intro i j s t h
  obtain ⟨hwidth, -⟩ := commandFrame i s t h
  exact responseDependsOnlyOnTheCommand j t s hwidth

/-- Elaboration with the data width of an instance gives that instance (R6). -/
theorem elaborate_width_k (w : Width) : elaborate w.k = .ok w := by cases w <;> rfl

/-- Settles O46, by the instance of each supported width and the refusal of every other. -/
theorem onlySupportedWidthsElaborate : Obligations.OnlySupportedWidthsElaborate := by
  refine fun k => ⟨?_, fun h => ?_⟩
  · rintro (rfl | rfl | rfl)
    · exact ⟨.k8, elaborate_width_k .k8, rfl⟩
    · exact ⟨.k16, elaborate_width_k .k16, rfl⟩
    · exact ⟨.k32, elaborate_width_k .k32, rfl⟩
  · obtain ⟨h8, h16, h32⟩ : k ≠ 8 ∧ k ≠ 16 ∧ k ≠ 32 := by simpa using h
    exact elaborate_of_unsupported h8 h16 h32

end Sys2Proof.Machine
end

section
/-! SUPPORT. The step as the host sees it: readable registers let it complete, the host moves on from
the state the edge left, and each step uses up one cycle of the program (R132 to R139). -/

namespace Sys2Proof.Machine

section
variable {s t u : State}

/-- Whether the registers can be read depends on them and on the reset mark alone (R30, R58). -/
theorem State.Readable.congr (hs : s.Readable) (hrsp : t.rsp = s.rsp)
    (hseen : t.resetSeen = s.resetSeen) : t.Readable := by
  obtain ⟨hs, hr⟩ := hs
  exact ⟨hseen.trans hs, by rwa [State.holdsReservedCode, hrsp, hseen]⟩

/-- An edge writes the registers and the reset mark, and nothing else (R125). -/
theorem State.edge_frame (h : s.edge = .next u) :
    ∃ r seen, u = { s with rsp := r, resetSeen := seen } := by
  rcases s.edge_cases with ⟨-, e⟩ | ⟨-, -, e⟩ | ⟨-, -, e⟩ <;> cases e.symm.trans h <;>
    exact ⟨_, _, rfl⟩

/-- A step ends with the host's move, from a state that has the host's lists as they were (R138). -/
theorem step_hostMove (h : step s = .next t) :
    ∃ u : State, u.presentNext = .next t ∧ u.width = s.width ∧ u.pending = s.pending ∧
      u.program = s.program := by
  obtain ⟨-, u, hedge, hcycle⟩ := step_cases h
  obtain ⟨r, seen, rfl⟩ := State.edge_frame hedge
  exact ⟨_, hcycle, by simp, by simp, by simp⟩

/-- With registers that can be read, a step completes and leaves them so (R132). -/
theorem step_of_readable (hs : s.Readable) : ∃ t, step s = .next t ∧ t.Readable := by
  obtain ⟨hseen, hr⟩ := hs
  obtain ⟨u, hedge, hseen', hr', -⟩ := State.edge_readable hseen hr
  obtain ⟨t, hcycle⟩ := cycle_completes u hseen' hr'
  obtain ⟨-, hrsp, hmark, -⟩ := cycle_frame hcycle
  refine ⟨t, ?_, State.Readable.congr ⟨hseen', hr'⟩ hrsp hmark⟩
  rw [step, hr, if_neg Bool.false_ne_true, hedge]
  exact hcycle

/-- A codeword operand `rsp_cw` that can be read is what the register holds (R65). -/
theorem State.cwOfSource_rspCw_eq {c : CodeWord} (h : s.cwOfSource .rspCw = .ok c) :
    c = s.rsp.cw := by
  unfold State.cwOfSource State.readResponse at h
  split_ifs at h
  exact (Except.ok.inj h).symm

/-- The host drives a pending cycle on the operand `rsp_cw` with what the register holds, as far as the
port carries it (R65). -/
theorem State.presentNext_loopback {d : Drive} {ds : List Drive} (hp : s.pending = d :: ds)
    (hd : d.cmdCw = .rspCw) (h : s.presentNext = .next t) :
    t.inp.cmdCw = t.width.cwWires t.rsp.cw ∧ t.inp.cmdOp = d.cmdOp ∧ t.pending = ds := by
  rw [State.presentNext, hp] at h
  obtain ⟨c, hc, rfl⟩ := State.drive_next h
  rw [hd] at hc
  rw [State.cwOfSource_rspCw_eq hc]
  exact ⟨rfl, rfl, rfl⟩

/-- The response of a valid command is the next entry of the record after the host's cycle (R135). -/
theorem cycle_record_response (hseen : s.resetSeen = true) (hvalid : s.rsp.valid = true)
    (h : s.cycle = .next t) : ∃ es, t.record = s.record ++ .response s.rsp :: es := by
  have hsample : s.sample = s.note (.response s.rsp) := by simp [State.sample, hseen, hvalid]
  rw [State.cycle, hsample] at h
  obtain ⟨-, -, -, -, es, hrecord⟩ := State.presentNext_frame h
  exact ⟨es, hrecord.trans (List.append_assoc s.record [.response s.rsp] es)⟩

/-- A run whose first step answers a next state goes on from there. -/
theorem run_succ_of_step {n : Nat} (h : step s = .next u) :
    Host.Core.run core (n + 1) s = Host.Core.run core n u := by
  rw [run_succ, h]
  rfl

/-- The ports carry a cycle of the program, and `k` more cycles are to be driven after it (R139). -/
structure State.Running (s : State) (k : Nat) : Prop where
  readable : s.Readable
  driving : s.driving = true
  cyclesLeft : s.cyclesLeft = k

/-- While the ports carry a cycle of the program, the run has not ended (R139). -/
theorem State.Running.runEnded_eq_false {k : Nat} (h : s.Running k) : s.runEnded = false := by
  simp [State.runEnded, h.driving]

/-- A step uses up one cycle, or, when none is left, ends the run (R139). -/
theorem step_cycles (h : step s = .next t) :
    (s.cyclesLeft = 0 → t.runEnded = true) ∧
    (∀ k, s.cyclesLeft = k + 1 → t.driving = true ∧ t.cyclesLeft = k) := by
  obtain ⟨u, hmove, hwidth, hpending, hprogram⟩ := step_hostMove h
  have hleft : u.cyclesLeft = s.cyclesLeft := by
    rw [State.cyclesLeft, hwidth, hpending, hprogram, State.cyclesLeft]
  rw [← hleft]
  exact State.presentNext_cycles hmove

/-- A step with cycles left goes on to the next of them. -/
theorem State.Running.step_succ {k : Nat} (h : s.Running (k + 1)) :
    ∃ t, step s = .next t ∧ t.Running k := by
  obtain ⟨t, ht, hread⟩ := step_of_readable h.readable
  obtain ⟨hdriving, hleft⟩ := (step_cycles ht).2 k h.cyclesLeft
  exact ⟨t, ht, hread, hdriving, hleft⟩

/-- A run of no more steps than there are cycles left is still in the program. -/
theorem State.Running.run {k : Nat} (n : Nat) (h : s.Running (k + n)) :
    ∃ t, Host.Core.run core n s = .next t ∧ t.Running k := by
  induction n generalizing s with
  | zero => exact ⟨s, rfl, h⟩
  | succ n ih =>
    obtain ⟨u, hu, hnext⟩ := h.step_succ
    obtain ⟨t, ht, hk⟩ := ih hnext
    exact ⟨t, (run_succ_of_step hu).trans ht, hk⟩

/-- A run through the cycle on the ports and all that are left ends (R139). -/
theorem State.Running.run_ends {k : Nat} (h : s.Running k) :
    ∃ t, Host.Core.run core (k + 1) s = .next t ∧ t.runEnded = true := by
  induction k generalizing s with
  | zero =>
    obtain ⟨t, ht, -⟩ := step_of_readable h.readable
    exact ⟨t, run_succ_of_step ht, (step_cycles ht).1 h.cyclesLeft⟩
  | succ k ih =>
    obtain ⟨u, hu, hnext⟩ := h.step_succ
    obtain ⟨t, ht, hended⟩ := ih hnext
    exact ⟨t, (run_succ_of_step hu).trans ht, hended⟩

/-- Loading a program drives its first cycle, or, when it has none, ends the run at once (R139). -/
theorem State.load_cycles {p : List Stmt} (hs : s.Readable) :
    ∃ s0, s.load p = .next s0 ∧
      ((p.map (Stmt.cycles s.width)).sum = 0 → s0.runEnded = true) ∧
      (∀ k, (p.map (Stmt.cycles s.width)).sum = k + 1 → s0.Running k) := by
  have hleft : State.cyclesLeft { s with pending := [], program := p } =
      (p.map (Stmt.cycles s.width)).sum := Nat.zero_add _
  obtain ⟨s0, hload⟩ :=
    State.presentNext_completes { s with pending := [], program := p } hs.1 hs.2
  obtain ⟨-, hrsp, hseen, -⟩ := State.presentNext_frame hload
  obtain ⟨hended, hnext⟩ := State.presentNext_cycles hload
  rw [hleft] at hended hnext
  refine ⟨s0, hload, hended, fun k hk => ?_⟩
  obtain ⟨hdriving, hk⟩ := hnext k hk
  exact ⟨hs.congr hrsp hseen, hdriving, hk⟩

end

/-- A placed word of at most `W` bits puts the command of its fields on the ports (R51, R52). -/
theorem State.withFetchWord_presents {s : State} {v : Nat} (h : v < 2 ^ s.width.cmdBits) :
    (s.withFetchWord s.width.cmdBits v).Presents
      (decodeFields s.width (unpack s.width (BitVec.ofNat 78 v))) := by
  refine ⟨rfl, rfl, ?_⟩
  simp only [State.withFetchWord, Inputs.command, Inputs.ofWord, Nat.mod_eq_of_lt h]

/-- The decoder of numbers is the decoder of words where a word can hold the number (R57). -/
theorem decodeNat_of_lt {w : Width} {v : Nat} (h : v < 2 ^ w.cmdBits) :
    decodeNat w v = decode w (BitVec.ofNat 78 v) := if_pos h

end Sys2Proof.Machine
end

section
/-! PROOFS. The statements on reset, timing and the host's run (70_reset_and_hazards.md). -/

namespace Sys2Proof.Machine

/-- Settles O59: loading drives the first cycle, each step uses up one, and the step that finds none
left ends the run. -/
theorem runEndsAfterItsLastCycle : Obligations.RunEndsAfterItsLastCycle := by
  intro s p hs
  obtain ⟨s0, hload, hended, hrunning⟩ := State.load_cycles (p := p) hs
  refine ⟨s0, hload, ?_⟩
  cases hsum : (p.map (Stmt.cycles s.width)).sum with
  | zero => exact ⟨fun n hn => absurd hn n.not_lt_zero, s0, rfl, hended hsum⟩
  | succ k =>
    refine ⟨fun n hn => ?_, (hrunning k hsum).run_ends⟩
    obtain ⟨j, rfl⟩ : ∃ j, k = j + n := ⟨k - n, by omega⟩
    obtain ⟨t, ht, hj⟩ := (hrunning _ hsum).run n
    exact ⟨t, ht, hj.runEnded_eq_false⟩

/-- Settles O8: the step completes, and its edge is that of a command. -/
theorem responseAfterOneEdge : Obligations.ResponseAfterOneEdge := by
  rintro s i hs ⟨hrst, hvalid, rfl⟩
  obtain ⟨t, ht, -⟩ := step_of_readable hs
  have hrsp : t.rsp = Instr.response s.width (s.inp.command s.width) := by
    simpa [hrst, hvalid] using step_rsp_cases ht
  exact ⟨_, t, exec_eq_respond _ s, ht, hrsp, hrsp ▸ (Instr.response_valid _ _).1, step_width ht⟩

/-- Settles O12: the step completes, and the registers are those of an idle edge. -/
theorem idleEdgeHoldsTheResponse : Obligations.IdleEdgeHoldsTheResponse := by
  intro s hrst hvalid
  refine ⟨fun hs => ?_, fun t h => ?_⟩
  · obtain ⟨t, ht, -⟩ := step_of_readable hs
    exact ⟨t, ht⟩
  · obtain ⟨-, -, hidle⟩ := validFollowsCmdValid s t h
    have hrsp := hidle hrst hvalid
    exact ⟨congrArg Response.valid hrsp, hrsp⟩

/-- Settles O57: the host drives the operand after the edge, and the register fits the port. -/
theorem loopbackTakesTheNewResponse : Obligations.LoopbackTakesTheNewResponse := by
  rintro s t d ds ⟨⟨-, hfits⟩, -⟩ hp hd h
  obtain ⟨u, hmove, -, hpending, -⟩ := step_hostMove h
  obtain ⟨-, -, -, hcw⟩ := step_rsp_fits h hfits
  obtain ⟨hdriven, hop, hds⟩ := State.presentNext_loopback (hpending.trans hp) hd hmove
  exact ⟨hdriven.trans (lowBits_of_lt hcw), hop, hds⟩

/-- Settles O58: the edge writes a valid response, and the host samples it before it moves on. -/
theorem hostRecordsEveryResponse : Obligations.HostRecordsEveryResponse := by
  intro s t i hseen hi h
  obtain ⟨hr, -⟩ := step_cases h
  have hcycle := (step_of_presents hr hi).symm.trans h
  obtain ⟨-, hrsp, -⟩ := cycle_frame hcycle
  rw [hrsp]
  exact cycle_record_response (s := s.respond (Instr.response s.width i)) hseen
    (Instr.response_valid _ _).1 hcycle

/-- Settles O5: the edge of a presented command is `exec` of it, and a placed word presents the command
that the decoder reads from it. -/
theorem stepRunsThePresentedCommand : Obligations.StepRunsThePresentedCommand := by
  refine ⟨fun s i hr hi => ?_, fun s v i hv h => ?_⟩
  · rw [step_of_presents hr hi, exec_eq_respond]
    rfl
  · rw [decodeNat_of_lt hv] at h
    rw [decode_ok h]
    exact ⟨State.withFetchWord_presents hv, wellFormed_decodeFields _ _⟩

/-- Settles O18, by running it: RESET goes on the ports, and its edge overwrites the unknown registers
without a look at them. -/
theorem powerUpThenResetIsReset : Obligations.PowerUpThenResetIsReset := by
  intro w r
  have hload : (State.powerUp w r).load [.reset] =
      .next { State.powerUp w r with inp := Drive.reset.inputs 0#38, driving := true } :=
    State.presentNext_single (s := { State.powerUp w r with program := [.reset] })
      (d := Drive.reset) rfl rfl rfl rfl (Inputs.idle_fits w)
  exact ⟨_, hload, rfl⟩

end Sys2Proof.Machine
end
